-- ==== Sys2Proof/Word.lean ====
section
/-! DEFINITION. The word types of the LC-3 block (spec/00_scope.md R4, R6, R7).

A register value, a memory word, an address and an instruction word are all one 16-bit type: the spec adds, masks and
compares them as bits. Addition on it is modulo 65536 (R7). -/

namespace Sys2Proof

/-- A 16-bit value (R4, R7): register content, memory word, address, instruction word. -/
abbrev Word := BitVec 16

/-- An 8-bit value: a character of the keyboard or the console (R14, R15), a trap vector (R9). -/
abbrev Byte := BitVec 8

/-- The index of a general register, R0 to R7 (R21): selects, and is never computed with. -/
abbrev Reg := Fin 8

end Sys2Proof
end

