-- ==== Sys2Proof/Syntax.lean ====
section
/-! DEFINITION. The instructions, one constructor per row of spec/opcode_table.json, in the table's order.

A constructor holds the fields of its row (spec/30_encoding.md R62) and no bit that no field covers, since those bits are
ignored (R67). The offsets and the immediate stay the bits of their field: sign extension is part of the meaning (R64). -/

namespace Sys2Proof

/-- The sixteen opcodes (R65). Their numerals stand once, in `Opcode.numeral` of Decode.lean. -/
inductive Opcode where
  | br | add | ld | st | jsr | and | ldr | str | rti | not | ldi | sti | jmp | res | lea | trap
  deriving DecidableEq, Repr

/-- An instruction: one row of the opcode table with its fields. -/
inductive Instr where
  /-- ADD, register form (R81). -/
  | addReg (dr sr1 sr2 : Reg)
  /-- ADD, immediate form (R82). -/
  | addImm (dr sr1 : Reg) (imm5 : BitVec 5)
  /-- AND, register form (R83). -/
  | andReg (dr sr1 sr2 : Reg)
  /-- AND, immediate form (R84). -/
  | andImm (dr sr1 : Reg) (imm5 : BitVec 5)
  /-- NOT (R85). -/
  | not (dr sr : Reg)
  /-- BR with its condition mask n, z, p (R90). -/
  | br (n z p : Bool) (off9 : BitVec 9)
  /-- JMP; RET is this row with BaseR = 7 (R91, R92). -/
  | jmp (base : Reg)
  /-- JSR (R93). -/
  | jsr (off11 : BitVec 11)
  /-- JSRR (R94). -/
  | jsrr (base : Reg)
  /-- LD (R101). -/
  | ld (dr : Reg) (off9 : BitVec 9)
  /-- LDI (R102). -/
  | ldi (dr : Reg) (off9 : BitVec 9)
  /-- LDR (R103). -/
  | ldr (dr base : Reg) (off6 : BitVec 6)
  /-- LEA (R104). -/
  | lea (dr : Reg) (off9 : BitVec 9)
  /-- ST (R105). -/
  | st (sr : Reg) (off9 : BitVec 9)
  /-- STI (R106). -/
  | sti (sr : Reg) (off9 : BitVec 9)
  /-- STR (R107). -/
  | str (sr base : Reg) (off6 : BitVec 6)
  /-- TRAP x20, GETC (R121). -/
  | trapGetc
  /-- TRAP x21, OUT (R122). -/
  | trapOut
  /-- TRAP x22, PUTS (R123). -/
  | trapPuts
  /-- TRAP x23, IN (R124). -/
  | trapIn
  /-- TRAP x24, PUTSP (R125). -/
  | trapPutsp
  /-- TRAP x25, HALT (R126). -/
  | trapHalt
  /-- TRAP with a vector outside 0x20 to 0x25 (R127). -/
  | trapUnrecognised (vector : Byte)
  /-- RTI, reserved (R128). -/
  | rti
  /-- RES, reserved (R129). -/
  | res
  deriving DecidableEq, Repr

end Sys2Proof
end

