-- ==== Sys2Proof/WellFormed.lean ====
section
/-! DEFINITION. Which terms of `Instr` are instructions of the hardware.

The widths of the fields are in their types, so one check is left: the catch-all TRAP row stands for a vector only when
none of the six named rows does (spec/30_encoding.md R66). -/

namespace Sys2Proof

/-- The six vectors that have a built-in routine: 0x20 to 0x25 (R4, R65). -/
def namedVector (v : Byte) : Bool := 0x20#8 ≤ v && v ≤ 0x25#8

/-- The one check on an instruction (R66): the vector of an unrecognised TRAP is not a named one. -/
def Instr.wellFormed : Instr → Bool
  | .addReg _ _ _ => true
  | .addImm _ _ _ => true
  | .andReg _ _ _ => true
  | .andImm _ _ _ => true
  | .not _ _ => true
  | .br _ _ _ _ => true
  | .jmp _ => true
  | .jsr _ => true
  | .jsrr _ => true
  | .ld _ _ => true
  | .ldi _ _ => true
  | .ldr _ _ _ => true
  | .lea _ _ => true
  | .st _ _ => true
  | .sti _ _ => true
  | .str _ _ _ => true
  | .trapGetc => true
  | .trapOut => true
  | .trapPuts => true
  | .trapIn => true
  | .trapPutsp => true
  | .trapHalt => true
  | .trapUnrecognised vector => !namedVector vector
  | .rti => true
  | .res => true

end Sys2Proof
end

