-- ==== Sys2Proof/Decode.lean ====
section
/-! DEFINITION. The decoder, the encoder, and the opcode table (spec/30_encoding.md R60 to R73).

The decoder is total on words (R66): there is no word it rejects. `decodeTableWord` rejects, by name, a length that is not
one word. The sixteen opcode numerals stand in ONE table (93_implementation_defined.md G1 asks for that); numerals and
field positions are the spec's, which takes them from general knowledge of the LC-3 (log entry 15). -/

namespace Sys2Proof

/-! ## Opcode numerals (R65) -/

/-- The opcode of each 4-bit value `ir[15:12]`, from 0x0 to 0xF (R65). -/
def opcodeByNumeral : Vector Opcode 16 :=
  #v[.br, .add, .ld, .st, .jsr, .and, .ldr, .str, .rti, .not, .ldi, .sti, .jmp, .res, .lea, .trap]

/-- The opcode that a 4-bit value names (R65). -/
def Opcode.ofNumeral (n : BitVec 4) : Opcode := opcodeByNumeral.get n.toFin

/-- The 4-bit value of an opcode (R65), the inverse of `Opcode.ofNumeral`. -/
def Opcode.numeral : Opcode → BitVec 4
  | .br => 0x0
  | .add => 0x1
  | .ld => 0x2
  | .st => 0x3
  | .jsr => 0x4
  | .and => 0x5
  | .ldr => 0x6
  | .str => 0x7
  | .rti => 0x8
  | .not => 0x9
  | .ldi => 0xA
  | .sti => 0xB
  | .jmp => 0xC
  | .res => 0xD
  | .lea => 0xE
  | .trap => 0xF

/-! ## Field slices (R62) -/

/-- `ir[15:12]`, the opcode. -/
def fieldOpcode (ir : Word) : BitVec 4 := ir.extractLsb' 12 4

/-- `ir[11:9]`: DR, or SR of a store. -/
def fieldDR (ir : Word) : Reg := (ir.extractLsb' 9 3).toFin

/-- `ir[8:6]`: SR1, SR of NOT, BaseR. -/
def fieldSR1 (ir : Word) : Reg := (ir.extractLsb' 6 3).toFin

/-- `ir[2:0]`: SR2. -/
def fieldSR2 (ir : Word) : Reg := (ir.extractLsb' 0 3).toFin

/-- `ir[5]`: the mode bit of ADD and AND, 1 selects the immediate form (R63). -/
def fieldImmMode (ir : Word) : Bool := ir.getLsbD 5

/-- `ir[11]`: the mode bit of JSR/JSRR, 1 selects JSR (R63). -/
def fieldJsrMode (ir : Word) : Bool := ir.getLsbD 11

/-- `ir[4:0]`. -/
def fieldImm5 (ir : Word) : BitVec 5 := ir.extractLsb' 0 5

/-- `ir[5:0]`. -/
def fieldOffset6 (ir : Word) : BitVec 6 := ir.extractLsb' 0 6

/-- `ir[8:0]`. -/
def fieldPCoffset9 (ir : Word) : BitVec 9 := ir.extractLsb' 0 9

/-- `ir[10:0]`. -/
def fieldPCoffset11 (ir : Word) : BitVec 11 := ir.extractLsb' 0 11

/-- `ir[7:0]`, the trap vector. -/
def fieldTrapvect8 (ir : Word) : Byte := ir.extractLsb' 0 8

/-! ## The decoder (R65, R66) -/

/-- The sub-decode of TRAP on all eight bits of the vector (R65, R120). -/
def decodeTrap (vector : Byte) : Instr :=
  if vector = 0x20 then .trapGetc
  else if vector = 0x21 then .trapOut
  else if vector = 0x22 then .trapPuts
  else if vector = 0x23 then .trapIn
  else if vector = 0x24 then .trapPutsp
  else if vector = 0x25 then .trapHalt
  else .trapUnrecognised vector

/-- The decoder (R66): the opcode selects the row, then the row's sub-decode. Total on the 65536 words. -/
def decode (ir : Word) : Instr :=
  match Opcode.ofNumeral (fieldOpcode ir) with
  | .br => .br (ir.getLsbD 11) (ir.getLsbD 10) (ir.getLsbD 9) (fieldPCoffset9 ir)
  | .add =>
    if fieldImmMode ir then .addImm (fieldDR ir) (fieldSR1 ir) (fieldImm5 ir)
    else .addReg (fieldDR ir) (fieldSR1 ir) (fieldSR2 ir)
  | .ld => .ld (fieldDR ir) (fieldPCoffset9 ir)
  | .st => .st (fieldDR ir) (fieldPCoffset9 ir)
  | .jsr => if fieldJsrMode ir then .jsr (fieldPCoffset11 ir) else .jsrr (fieldSR1 ir)
  | .and =>
    if fieldImmMode ir then .andImm (fieldDR ir) (fieldSR1 ir) (fieldImm5 ir)
    else .andReg (fieldDR ir) (fieldSR1 ir) (fieldSR2 ir)
  | .ldr => .ldr (fieldDR ir) (fieldSR1 ir) (fieldOffset6 ir)
  | .str => .str (fieldDR ir) (fieldSR1 ir) (fieldOffset6 ir)
  | .rti => .rti
  | .not => .not (fieldDR ir) (fieldSR1 ir)
  | .ldi => .ldi (fieldDR ir) (fieldPCoffset9 ir)
  | .sti => .sti (fieldDR ir) (fieldPCoffset9 ir)
  | .jmp => .jmp (fieldSR1 ir)
  | .res => .res
  | .lea => .lea (fieldDR ir) (fieldPCoffset9 ir)
  | .trap => decodeTrap (fieldTrapvect8 ir)

/-- Why a sequence of bits is no instruction: the one reason is its length (R60: every instruction is one 16-bit word). -/
inductive DecodeReject where
  /-- The instruction is longer than the one word an instruction has (R60). Safe: nothing is decoded. -/
  | longerThanOneWord
  deriving DecidableEq, Repr

/-- Decodes `nbits` bits given as a number, the bits above them being 0; rejects by name what is longer than a word. -/
def decodeBits (nbits w : Nat) : Except DecodeReject Instr :=
  if nbits ≤ 16 then .ok (decode (BitVec.ofNat 16 (w % 2 ^ nbits))) else .error .longerThanOneWord

/-- The instruction the decoder reads from the instruction whose bits are `w`, numbered as spec/opcode_table.json numbers
them: bit 0 is the least significant bit of the one word (R6, R73). -/
def decodeTableWord (nbits w : Nat) : Option Instr :=
  match decodeBits nbits w with
  | .ok i => some i
  | .error _ => none

/-! ## The encoder (R70, R72) -/

/-- A register index as its 3-bit field. -/
def regBits (r : Reg) : BitVec 3 := BitVec.ofFin (w := 3) r

/-- A row of the form `oooo RRR iiiiiiiii` (R63, PCREL). -/
def encodePcrel (op : Opcode) (r : Reg) (off9 : BitVec 9) : Word := op.numeral ++ regBits r ++ off9

/-- A row of the form `oooo RRR BBB iiiiii` (R63, BASEOFF). -/
def encodeBaseoff (op : Opcode) (r base : Reg) (off6 : BitVec 6) : Word :=
  op.numeral ++ regBits r ++ regBits base ++ off6

/-- A row of the form `oooo DDD AAA 0 xx BBB` (R63, OP_RRR), the uncovered bits written 00 (R70). -/
def encodeRrr (op : Opcode) (dr sr1 sr2 : Reg) : Word :=
  op.numeral ++ regBits dr ++ regBits sr1 ++ 0b000#3 ++ regBits sr2

/-- A row of the form `oooo DDD AAA 1 iiiii` (R63, OP_RRI). -/
def encodeRri (op : Opcode) (dr sr1 : Reg) (imm5 : BitVec 5) : Word :=
  op.numeral ++ regBits dr ++ regBits sr1 ++ 0b1#1 ++ imm5

/-- A row of the form `1111 xxxx vvvvvvvv` (R63, TRAP), the uncovered bits written 0000 (R70). -/
def encodeTrap (vector : Byte) : Word := Opcode.numeral .trap ++ 0x0#4 ++ vector

/-- The encoder (R72): the canonical word of an instruction, uncovered bits as R70 writes them (0, and 111111 in NOT). -/
def encode : Instr → Word
  | .addReg dr sr1 sr2 => encodeRrr .add dr sr1 sr2
  | .addImm dr sr1 imm5 => encodeRri .add dr sr1 imm5
  | .andReg dr sr1 sr2 => encodeRrr .and dr sr1 sr2
  | .andImm dr sr1 imm5 => encodeRri .and dr sr1 imm5
  | .not dr sr => Opcode.numeral .not ++ regBits dr ++ regBits sr ++ 0b111111#6
  | .br n z p off9 => Opcode.numeral .br ++ BitVec.ofBool n ++ BitVec.ofBool z ++ BitVec.ofBool p ++ off9
  | .jmp base => Opcode.numeral .jmp ++ 0b000#3 ++ regBits base ++ 0b000000#6
  | .jsr off11 => Opcode.numeral .jsr ++ 0b1#1 ++ off11
  | .jsrr base => Opcode.numeral .jsr ++ 0b0#1 ++ 0b00#2 ++ regBits base ++ 0b000000#6
  | .ld dr off9 => encodePcrel .ld dr off9
  | .ldi dr off9 => encodePcrel .ldi dr off9
  | .ldr dr base off6 => encodeBaseoff .ldr dr base off6
  | .lea dr off9 => encodePcrel .lea dr off9
  | .st sr off9 => encodePcrel .st sr off9
  | .sti sr off9 => encodePcrel .sti sr off9
  | .str sr base off6 => encodeBaseoff .str sr base off6
  | .trapGetc => encodeTrap 0x20
  | .trapOut => encodeTrap 0x21
  | .trapPuts => encodeTrap 0x22
  | .trapIn => encodeTrap 0x23
  | .trapPutsp => encodeTrap 0x24
  | .trapHalt => encodeTrap 0x25
  | .trapUnrecognised vector => encodeTrap vector
  | .rti => Opcode.numeral .rti ++ 0x000#12
  | .res => Opcode.numeral .res ++ 0x000#12

/-! ## The rows of the opcode table (R66, R73)

A second reading of the encoding, written from spec/opcode_table.json and used by no definition above: the statements hold
the decoder against it. -/

/-- One row of the table: a word w matches it when `w & mask = pattern` (R66). -/
structure OpcodeRow where
  mnemonic : String
  mask : Word
  pattern : Word
  deriving DecidableEq, Repr

/-- Whether a word matches a row (R66). -/
def OpcodeRow.fits (row : OpcodeRow) (w : Word) : Bool := w &&& row.mask == row.pattern

/-- The rows up to TRAP, in the table's order. -/
def opcodeRowsPlain : List OpcodeRow :=
  [⟨"ADD", 0xF020, 0x1000⟩, ⟨"ADD", 0xF020, 0x1020⟩, ⟨"AND", 0xF020, 0x5000⟩, ⟨"AND", 0xF020, 0x5020⟩,
   ⟨"NOT", 0xF000, 0x9000⟩, ⟨"BR", 0xF000, 0x0000⟩, ⟨"JMP", 0xF000, 0xC000⟩, ⟨"JSR", 0xF800, 0x4800⟩,
   ⟨"JSRR", 0xF800, 0x4000⟩, ⟨"LD", 0xF000, 0x2000⟩, ⟨"LDI", 0xF000, 0xA000⟩, ⟨"LDR", 0xF000, 0x6000⟩,
   ⟨"LEA", 0xF000, 0xE000⟩, ⟨"ST", 0xF000, 0x3000⟩, ⟨"STI", 0xF000, 0xB000⟩, ⟨"STR", 0xF000, 0x7000⟩]

/-- The rows from TRAP on, in the table's order: the six named routines, the catch-all, RTI, RES. -/
def opcodeRowsTrap : List OpcodeRow :=
  [⟨"TRAP_GETC", 0xF0FF, 0xF020⟩, ⟨"TRAP_OUT", 0xF0FF, 0xF021⟩, ⟨"TRAP_PUTS", 0xF0FF, 0xF022⟩,
   ⟨"TRAP_IN", 0xF0FF, 0xF023⟩, ⟨"TRAP_PUTSP", 0xF0FF, 0xF024⟩, ⟨"TRAP_HALT", 0xF0FF, 0xF025⟩,
   ⟨"TRAP__unrecognised_vector", 0xF000, 0xF000⟩, ⟨"RTI", 0xF000, 0x8000⟩, ⟨"RES", 0xF000, 0xD000⟩]

/-- The 25 rows in decode priority order: a word selects the first row it matches (R73). -/
def opcodeRows : List OpcodeRow := opcodeRowsPlain ++ opcodeRowsTrap

/-- The place of an instruction's row in `opcodeRows`, counted from 0. -/
def Instr.rowIndex : Instr → Nat
  | .addReg _ _ _ => 0
  | .addImm _ _ _ => 1
  | .andReg _ _ _ => 2
  | .andImm _ _ _ => 3
  | .not _ _ => 4
  | .br _ _ _ _ => 5
  | .jmp _ => 6
  | .jsr _ => 7
  | .jsrr _ => 8
  | .ld _ _ => 9
  | .ldi _ _ => 10
  | .ldr _ _ _ => 11
  | .lea _ _ => 12
  | .st _ _ => 13
  | .sti _ _ => 14
  | .str _ _ _ => 15
  | .trapGetc => 16
  | .trapOut => 17
  | .trapPuts => 18
  | .trapIn => 19
  | .trapPutsp => 20
  | .trapHalt => 21
  | .trapUnrecognised _ => 22
  | .rti => 23
  | .res => 24

/-- The bits of a word that no field covers (R67), as a mask that is 1 at those bits. -/
def uncoveredBits (w : Word) : Word :=
  match Opcode.ofNumeral (fieldOpcode w) with
  | .add => if fieldImmMode w then 0x0000 else 0x0018
  | .and => if fieldImmMode w then 0x0000 else 0x0018
  | .not => 0x003F
  | .jmp => 0x0E3F
  | .jsr => if fieldJsrMode w then 0x0000 else 0x063F
  | .trap => 0x0F00
  | .rti => 0x0FFF
  | .res => 0x0FFF
  | .br => 0x0000
  | .ld => 0x0000
  | .st => 0x0000
  | .ldr => 0x0000
  | .str => 0x0000
  | .ldi => 0x0000
  | .sti => 0x0000
  | .lea => 0x0000

end Sys2Proof
end

