-- ==== Sys2Proof/Config.lean ====
section
/-! DEFINITION. The configuration: what the spec leaves to the machine and gives no value (spec/00_scope.md R5).

Both texts are parameters "no rule of this spec fixes" (R5, 92_eei_decisions.md D11), so they have no body here: nothing
proved about the model can rest on what they are (log entry 6). Nor have the answers that an endless keyboard input goes on
with (R15, log entry 4). The other parameters of R5 are launch parameters, arguments
of `State.launch`; `COND_ENC` is needed only by a model that stores COND as bits (R25), which this one does not. -/

namespace Sys2Proof

/-- `IN_PROMPT` (R5, R124): the text the IN routine writes before it reads. DESIGN CHOICE safe: any list of bytes. -/
opaque Config.inPrompt : List Byte

/-- `HALT_NOTICE` (R5, R126): the text the HALT routine writes. DESIGN CHOICE safe: any list of bytes. -/
opaque Config.haltNotice : List Byte

/-- What the keyboard environment number `env` answers in stretch number `n` of its answers, one after another (R15, R29 (a)):
under no law (93_implementation_defined.md U6). DESIGN CHOICE safe: any list of answers, of any length. -/
opaque Config.keyAnswers (env n : Nat) : List (Option Byte)

end Sys2Proof
end

