-- ==== Sys2Proof/Machine/State.lean ====
section
/-! DEFINITION. The state of the machine: the tuple of spec/10_state.md R20, as plain data, and the state after reset.

What R32 says is not state (the instruction word, the fields, the effective address, the pointer of a string routine) is not
here. What a step can answer instead of a next state is `Fault` and `Refusal`. -/

namespace Sys2Proof.Machine

/-- The condition register (R25): exactly one of three values. COND_ENC is not needed, no instruction sees bits of it. -/
inductive Cond where
  | pos
  | zero
  | neg
  deriving DecidableEq, Repr

/-- The run state (R27): RUNNING, HALTED (the good end), ABORTED (the end by an invalid instruction). -/
inductive Status where
  | running
  | halted
  | aborted
  deriving DecidableEq, Repr

/-- The cause of an InvalidInstruction (R140). For TRAP_VECTOR the record also carries the vector (R28). -/
inductive AbortCause where
  | rti
  | res
  | trapVector (vector : Byte)
  deriving DecidableEq, Repr

/-- The abort record (R28, R142): cause, opcode `ir[15:12]`, and the address the faulting word was fetched from. -/
structure AbortRecord where
  cause : AbortCause
  opcode : BitVec 4
  addr : Word
  deriving DecidableEq, Repr

/-- How the answers of a keyboard go on after its script, for ever. Every endless sequence of answers is, after finitely
many, of one of these three kinds (log entry 4); `env` tells environments apart, `n` is the stretch that comes next. -/
inductive KeyTail where
  /-- No key, for ever. -/
  | silent
  /-- Answers among which there is always another character, and always another answer that can end a string routine (no key,
  or the character 0x00). -/
  | mixed (env n : Nat)
  /-- A key at every moment, and never the character 0x00. -/
  | busy (env n : Nat)
  deriving DecidableEq, Repr

/-- The keyboard environment `KBD` (R15, R29) as plain data: the answers it gives, in order, and how they go on. An entry
`some c` is a character, an entry `none` a moment with no key. A `silent` tail gives the reference queue (a script of
characters) and the scripted poll sequence of R29 (b); the other tails give the unconstrained environment of R29 (a): their
answers are free values, `Config.keyAnswers`. -/
structure Keyboard where
  script : List (Option Byte)
  tail : KeyTail
  deriving DecidableEq, Repr

/-- One word of memory at an address. The addressable unit is the 16-bit word (R40), so a cell holds a word (log entry 1). -/
abbrev WordCell := Nat × Word

/-- Memory (R40): the words listed by address; an address not listed reads as `Memory.unlisted` (log entry 2). Its one
canonical form is `Memory.wf` of Ops.lean. -/
abbrev Memory := List WordCell

/-- The architectural state (R20): there is no other state a program or the host can observe. -/
structure State where
  /-- R0 to R7 (R21). -/
  regs : Vector Word 8
  /-- The program counter (R23). -/
  pc : Word
  /-- The condition register (R25). -/
  cond : Cond
  /-- The 65536 words of memory, KBSR and KBDR among them (R20, R50). -/
  mem : Memory
  /-- The run state (R27). -/
  status : Status
  /-- The abort record (R28). -/
  abort : Option AbortRecord
  /-- The keyboard input (R29). -/
  kbd : Keyboard
  /-- The console output, oldest byte first (R30). -/
  out : List Byte
  deriving DecidableEq, Repr

/-- Why a step has no next state: the ways of R153 and R166. None of them is the hardware's exception, which is a next
state with status ABORTED (R141). -/
inductive Fault where
  /-- Raised by `step` when status is HALTED: the agent has no step (R166). Safe: the hardware takes none either. -/
  | runHalted
  /-- Raised by `step` when status is ABORTED: the agent has no step (R166). Safe: the hardware takes none either. -/
  | runAborted
  /-- Raised by GETC and IN when the keyboard has no character to deliver: the step is held and no state changes (R151).
  Not an error of the machine: the host may add a character to the keyboard and step again. Safe: no transition (R153). -/
  | heldForKeyboard
  /-- Raised by PUTS and PUTSP when they never read a zero word: the step does not complete (R169). Safe: no transition. -/
  | stringNeverEnds
  deriving DecidableEq, Repr

/-- Why a step has no meaning. Every instruction has a meaning, so no arm of `exec` raises it. -/
inductive Refusal where
  /-- Raised by an arm of `exec` for an instruction that has no meaning yet. Safe. -/
  | notModelled (mnemonic : String)
  deriving DecidableEq, Repr

/-- The machine right after reset, that is after a launch (R33, R161), with no image laid down: registers 0x0000, COND ZERO,
status RUNNING, no abort record, no output. DESIGN CHOICE unsafe for the launch parameters, which the host supplies:
ENTRY = 0x3000 (log entry 3), MEM_INIT all zero (log entry 2), a keyboard that delivers nothing (log entry 5). -/
def State.reset : State where
  regs := Vector.replicate 8 0x0000
  pc := 0x3000
  cond := .zero
  mem := []
  status := .running
  abort := none
  kbd := { script := [], tail := .silent }
  out := []

end Sys2Proof.Machine
end

