-- ==== Sys2Proof/Machine/Ops.lean ====
section
/-! DEFINITION. The named operations over the state: memory, registers, keyboard, console, the two memory accessors, the
fetch, and taking the InvalidInstruction exception. Every meaning is written over these. -/

namespace Sys2Proof.Machine

/-! ## Memory -/

/-- What an address that memory does not list reads as (log entry 2). -/
def Memory.unlisted : Word := 0x0000

/-- The canonical form of a memory: addresses strictly rising and inside the address space (R40), no entry equal to what an
unlisted address reads as. Equal memories are then equal lists. -/
abbrev Memory.wf (m : Memory) : Prop :=
  m.Pairwise (fun c d => c.1 < d.1) ∧ ∀ c ∈ m, c.1 < 65536 ∧ c.2 ≠ Memory.unlisted

/-- The word stored at an address. -/
def Memory.read (m : Memory) (a : Nat) : Word :=
  match m with
  | [] => Memory.unlisted
  | (b, w) :: rest => if b = a then w else Memory.read rest a

/-- The memory without an entry at an address. -/
def Memory.erase (m : Memory) (a : Nat) : Memory := m.filter (fun c => c.1 != a)

/-- An entry put in front of the first greater address. -/
def Memory.insert (m : Memory) (a : Nat) (v : Word) : Memory :=
  match m with
  | [] => [(a, v)]
  | (b, w) :: rest => if a < b then (a, v) :: (b, w) :: rest else (b, w) :: Memory.insert rest a v

/-- The memory with a word stored at an address; storing what an unlisted address reads as removes the entry. -/
def Memory.write (m : Memory) (a : Nat) (v : Word) : Memory :=
  if v = Memory.unlisted then m.erase a else (m.erase a).insert a v

/-- `mem[a]` of R10: the stored word at an address, with no interception. -/
def State.memWord (s : State) (a : Word) : Word := s.mem.read a.toNat

/-- `MemWrite(a, 16, v)` (R42): the word at `a`, and nothing else, at every address. -/
def memWrite (s : State) (a v : Word) : State := { s with mem := s.mem.write a.toNat v }

/-! ## Registers -/

/-- `x[i]` (R10): no register is hard-wired (R21). -/
def State.reg (s : State) (i : Reg) : Word := s.regs.get i

/-- `x[i] <- v` (R10). -/
def State.setReg (s : State) (i : Reg) (v : Word) : State := { s with regs := s.regs.set i.val v i.isLt }

/-- `pc <- t` (R10). -/
def State.setPc (s : State) (t : Word) : State := { s with pc := t }

/-- The linkage `x[7] <- pc` of JSR, JSRR and every TRAP (R22): the incremented PC into R7, flags untouched. -/
def link (s : State) : State := s.setReg 7 s.pc

/-! ## Bytes of a word -/

/-- `zext_16` of an 8-bit value (R9). -/
def zext16 (c : Byte) : Word := c.setWidth 16

/-- `v[7:0]` (R6). -/
def lowByte (v : Word) : Byte := v.extractLsb' 0 8

/-- `v[15:8]` (R6). -/
def highByte (v : Word) : Byte := v.extractLsb' 8 8

/-! ## Keyboard and console -/

/-- Whether an answer to a poll can end a string routine: no key makes KBSR zero, the character 0x00 makes KBDR zero (R169). -/
def endsString (answer : Option Byte) : Bool := answer == none || answer == some 0x00

/-- A stretch of answers of a `mixed` tail: any list that holds a character and an answer that can end a string routine; any
other list gets one answer more, which is both. -/
def mixedStretch (answers : List (Option Byte)) : List (Option Byte) :=
  if answers.any Option.isSome && answers.any endsString then answers else answers ++ [some 0x00]

/-- A stretch of answers of a `busy` tail: what a list holds of characters other than 0x00, and one at least. -/
def busyStretch (answers : List (Option Byte)) : List (Option Byte) :=
  match answers.filter (fun a => !endsString a) with
  | [] => [some 0x01]
  | a :: later => a :: later

/-- The answers that come next after the script; none for a `silent` tail. -/
def KeyTail.stretch : KeyTail → List (Option Byte)
  | .silent => []
  | .mixed env n => mixedStretch (Config.keyAnswers env n)
  | .busy env n => busyStretch (Config.keyAnswers env n)

/-- The tail after that stretch. -/
def KeyTail.next : KeyTail → KeyTail
  | .silent => .silent
  | .mixed env n => .mixed env (n + 1)
  | .busy env n => .busy env (n + 1)

/-- `KbdPoll()` (R15): the next answer, taken from the input; it never blocks. -/
def Keyboard.poll (k : Keyboard) : Option Byte × Keyboard :=
  match k.script, k.tail.stretch with
  | answer :: later, _ => (answer, { k with script := later })
  | [], answer :: later => (answer, { script := later, tail := k.tail.next })
  | [], [] => (none, k)

/-- The first character of a list of answers and what follows it: the moments with no key before it pass. -/
def firstKey : List (Option Byte) → Option (Byte × List (Option Byte))
  | [] => none
  | some c :: later => some (c, later)
  | none :: later => firstKey later

/-- `KbdGet()` (R15): the next character, taken from the same input as the polls; `none` while there is none to come, and
the instruction that asked is then held (R151). -/
def Keyboard.get (k : Keyboard) : Option (Byte × Keyboard) :=
  match firstKey k.script, firstKey k.tail.stretch with
  | some (c, later), _ => some (c, { k with script := later })
  | none, some (c, later) => some (c, { script := later, tail := k.tail.next })
  | none, none => none

/-- `ConOut` of the bytes of a list in order (R14, R30): appended, never failing. -/
def conOut (s : State) (bytes : List Byte) : State := { s with out := s.out ++ bytes }

/-! ## The intercepting read -/

/-- The address of KBSR (R4, R50). -/
def kbsrAddr : Word := 0xFE00

/-- The address of KBDR (R4, R50). -/
def kbdrAddr : Word := 0xFE02

/-- What KBSR holds after a poll that found a key (R4). -/
def kbsrReady : Word := 0x8000

/-- What a read of 0xFE00 does before the word is returned (R43): poll; with a key, KBSR is 0x8000 and KBDR the character;
with none, KBSR is 0x0000 and KBDR is left alone. -/
def pollKbsr (s : State) : State :=
  match s.kbd.poll with
  | (some c, kbd) => memWrite (memWrite { s with kbd := kbd } kbsrAddr kbsrReady) kbdrAddr (zext16 c)
  | (none, kbd) => memWrite { s with kbd := kbd } kbsrAddr 0x0000

/-- The side effect of a read at `a`: only 0xFE00 has one (R49). -/
def intercept (s : State) (a : Word) : State := if a = kbsrAddr then pollKbsr s else s

/-- `MemRead(a, 16)` (R43): the interception, then the stored word. Every read of the block is this one (R46). -/
def memRead (s : State) (a : Word) : Word × State := ((intercept s a).memWord a, intercept s a)

/-! ## Fetch -/

/-- Stages 1 and 2 of the step (R160): the word at `pc`, read like any other, and `pc` moved past it. -/
def fetch (s : State) : Word × State :=
  let r := memRead s s.pc
  (r.1, r.2.setPc (r.2.pc + 1))

/-! ## The exception -/

/-- `raise InvalidInstruction(cause, opcode, addr)` (R13, R141): status and abort record, and nothing else. There is no
handler and no return (R147): the run is over. -/
def raiseInvalid (s : State) (cause : AbortCause) (opcode : BitVec 4) (addr : Word) : State :=
  { s with status := .aborted, abort := some { cause := cause, opcode := opcode, addr := addr } }

/-- The address the executing instruction was fetched from: the incremented PC minus 1, modulo 65536 (R142). -/
def faultAddr (s : State) : Word := s.pc - 1

/-- `status <- HALTED` (R126): the good end of the run. -/
def haltRun (s : State) : State := { s with status := .halted }

/-! ## The string routines -/

/-- What PUTS sends for a word that is not zero (R123): the low byte. -/
def putsBytes (w : Word) : List Byte := [lowByte w]

/-- What PUTSP sends for a word that is not zero (R125): the low byte, then the high byte unless it is zero. -/
def putspBytes (w : Word) : List Byte := if highByte w = 0x00 then [lowByte w] else [lowByte w, highByte w]

/-- The loop of PUTS and PUTSP (R123, R125): read the word at `a`, stop at a zero word, else send its bytes and go on at
`a + 1`, modulo 65536. `none` when `fuel` reads met no zero word. -/
def printString (bytesOf : Word → List Byte) (fuel : Nat) (a : Word) (s : State) : Option State :=
  match fuel with
  | 0 => none
  | fuel + 1 =>
    let r := memRead s a
    if r.1 = 0x0000 then some r.2 else printString bytesOf fuel (a + 1) (conOut r.2 (bytesOf r.1))

/-- Reads after which a string routine that has met no zero word never meets one (R169, log entry 9). Each revolution of
65536 reads polls once at 0xFE00: one revolution for each answer of the script and of the stretch after it, one more in which
the answer after these is stored, and one over words that are never zero again. -/
def stringFuel (k : Keyboard) : Nat := 65536 * (k.script.length + k.tail.stretch.length + 2)

end Sys2Proof.Machine
end

