-- ==== Sys2Proof/Machine/Flags.lean ====
section
/-! DEFINITION. The condition register: the updater `setcc` and the test of BR (spec/40_operate.md R86;
spec/41_control.md R90). There is no carry and no overflow flag (R87). -/

namespace Sys2Proof.Machine

/-- The condition of a 16-bit value (R86): NEG when bit 15 is set, else ZERO when it is 0, else POS. -/
def condOf (v : Word) : Cond :=
  if v.msb then .neg else if v = 0x0000 then .zero else .pos

/-- `setcc(i)` (R12, R86): COND from the value register i holds now. -/
def setcc (s : State) (i : Reg) : State := { s with cond := condOf (s.reg i) }

/-- A register-defining instruction's write (R26): DR, then `setcc(DR)`. -/
def defineReg (s : State) (dr : Reg) (v : Word) : State := setcc (s.setReg dr v) dr

/-- Whether BR with mask n, z, p is taken (R90): n requests NEG, z requests ZERO, p requests POS. -/
def brTaken (n z p : Bool) (c : Cond) : Bool :=
  match c with
  | .neg => n
  | .zero => z
  | .pos => p

end Sys2Proof.Machine
end

