-- ==== Sys2Proof/Machine/Operands.lean ====
section
/-! DEFINITION. Operand forms: immediates, the bytes of a word, and the effective addresses (spec/00_scope.md R8, R9;
spec/30_encoding.md R64; spec/42_data_movement.md R100). `s.pc` is the incremented PC here. -/

namespace Sys2Proof.Machine

/-- `sext_N` (R8), for an N-bit field. -/
def sext {n : Nat} (v : BitVec n) : Word := v.signExtend 16

/-- `pc + sext_9(ir[8:0])` (R100), modulo 65536. -/
def pcRelative9 (s : State) (off9 : BitVec 9) : Word := s.pc + sext off9

/-- `pc + sext_11(ir[10:0])` (R93), modulo 65536. -/
def pcRelative11 (s : State) (off11 : BitVec 11) : Word := s.pc + sext off11

/-- `x[BaseR] + sext_6(ir[5:0])` (R100), modulo 65536. -/
def baseOffset (s : State) (base : Reg) (off6 : BitVec 6) : Word := s.reg base + sext off6

end Sys2Proof.Machine
end

