-- ==== Sys2Proof/Machine/Control.lean ====
section
/-! DEFINITION. The control-transfer instructions BR, JMP, JSR, JSRR (spec/41_control.md R90 to R95). `s.pc` is the
incremented PC. No transfer can fault (R95). -/

namespace Sys2Proof.Machine

/-- BR (R90). -/
def execBr (n z p : Bool) (off9 : BitVec 9) (s : State) : Host.Outcome State Fault Refusal :=
  .next (if brTaken n z p s.cond then s.setPc (pcRelative9 s off9) else s)

/-- JMP; RET when `base` is R7 (R91, R92). -/
def execJmp (base : Reg) (s : State) : Host.Outcome State Fault Refusal :=
  .next (s.setPc (s.reg base))

/-- JSR (R93). -/
def execJsr (off11 : BitVec 11) (s : State) : Host.Outcome State Fault Refusal :=
  .next ((link s).setPc (pcRelative11 s off11))

/-- JSRR (R94): the base register is read AFTER R7 is written, so `JSRR R7` goes to the next instruction. -/
def execJsrr (base : Reg) (s : State) : Host.Outcome State Fault Refusal :=
  .next ((link s).setPc ((link s).reg base))

end Sys2Proof.Machine
end

