-- ==== Sys2Proof/Machine/DataMovement.lean ====
section
/-! DEFINITION. The data-movement instructions LD, LDI, LDR, LEA, ST, STI, STR (spec/42_data_movement.md R100 to R108).
Every read is the intercepting one (R46); the address is formed from the state before it. -/

namespace Sys2Proof.Machine

/-- One read at `a`, its word into DR with the flags: the tail of LD, LDI and LDR (R101 to R103). -/
def loadInto (dr : Reg) (a : Word) (s : State) : State :=
  let r := memRead s a
  defineReg r.2 dr r.1

/-- LD (R101). -/
def execLd (dr : Reg) (off9 : BitVec 9) (s : State) : Host.Outcome State Fault Refusal :=
  .next (loadInto dr (pcRelative9 s off9) s)

/-- LDI (R102): the pointer is read first, then the data, each read intercepted on its own. -/
def execLdi (dr : Reg) (off9 : BitVec 9) (s : State) : Host.Outcome State Fault Refusal :=
  let ptr := memRead s (pcRelative9 s off9)
  .next (loadInto dr ptr.1 ptr.2)

/-- LDR (R103). -/
def execLdr (dr base : Reg) (off6 : BitVec 6) (s : State) : Host.Outcome State Fault Refusal :=
  .next (loadInto dr (baseOffset s base off6) s)

/-- LEA (R104): no memory access; the flags ARE set. -/
def execLea (dr : Reg) (off9 : BitVec 9) (s : State) : Host.Outcome State Fault Refusal :=
  .next (defineReg s dr (pcRelative9 s off9))

/-- ST (R105). -/
def execSt (sr : Reg) (off9 : BitVec 9) (s : State) : Host.Outcome State Fault Refusal :=
  .next (memWrite s (pcRelative9 s off9) (s.reg sr))

/-- STI (R106): the pointer read is intercepted, the store is not. -/
def execSti (sr : Reg) (off9 : BitVec 9) (s : State) : Host.Outcome State Fault Refusal :=
  let ptr := memRead s (pcRelative9 s off9)
  .next (memWrite ptr.2 ptr.1 (ptr.2.reg sr))

/-- STR (R107). -/
def execStr (sr base : Reg) (off6 : BitVec 6) (s : State) : Host.Outcome State Fault Refusal :=
  .next (memWrite s (baseOffset s base off6) (s.reg sr))

end Sys2Proof.Machine
end

