-- ==== Sys2Proof/Machine/Operate.lean ====
section
/-! DEFINITION. The operate instructions ADD, AND, NOT (spec/40_operate.md R80 to R85). The sources are read before DR is
written, so DR may be a source (R80). None of them can raise an exception. -/

namespace Sys2Proof.Machine

/-- ADD, register form (R81). -/
def execAddReg (dr sr1 sr2 : Reg) (s : State) : Host.Outcome State Fault Refusal :=
  .next (defineReg s dr (s.reg sr1 + s.reg sr2))

/-- ADD, immediate form (R82). -/
def execAddImm (dr sr1 : Reg) (imm5 : BitVec 5) (s : State) : Host.Outcome State Fault Refusal :=
  .next (defineReg s dr (s.reg sr1 + sext imm5))

/-- AND, register form (R83). -/
def execAndReg (dr sr1 sr2 : Reg) (s : State) : Host.Outcome State Fault Refusal :=
  .next (defineReg s dr (s.reg sr1 &&& s.reg sr2))

/-- AND, immediate form (R84). -/
def execAndImm (dr sr1 : Reg) (imm5 : BitVec 5) (s : State) : Host.Outcome State Fault Refusal :=
  .next (defineReg s dr (s.reg sr1 &&& sext imm5))

/-- NOT (R85). -/
def execNot (dr sr : Reg) (s : State) : Host.Outcome State Fault Refusal :=
  .next (defineReg s dr (~~~ s.reg sr))

end Sys2Proof.Machine
end

