-- ==== Sys2Proof/Machine/Trap.lean ====
section
/-! DEFINITION. TRAP with its six built-in routines, the unrecognised vector, and the reserved opcodes RTI and RES
(spec/43_trap_reserved.md R120 to R129). Every TRAP first writes R7 (R120); its whole routine is inside the one step. -/

namespace Sys2Proof.Machine

/-- A character into R0, zero-extended, with the flags: the end of GETC and IN (R121, R124). -/
def receiveChar (s : State) (c : Byte) : State := defineReg s 0 (zext16 c)

/-- `c <- KbdGet()` and then the rest of the routine; held while there is no character (R121, R124, R151). -/
def withKey (s : State) (andThen : Byte → State → State) : Host.Outcome State Fault Refusal :=
  match s.kbd.get with
  | some (c, kbd) => .next (andThen c { s with kbd := kbd })
  | none => .fault .heldForKeyboard

/-- The string routine of PUTS and PUTSP from the address in R0 (R123, R125). -/
def putString (bytesOf : Word → List Byte) (s : State) : Host.Outcome State Fault Refusal :=
  match printString bytesOf (stringFuel s.kbd) (s.reg 0) s with
  | some t => .next t
  | none => .fault .stringNeverEnds

/-- TRAP x20, GETC (R121). -/
def execTrapGetc (s : State) : Host.Outcome State Fault Refusal :=
  withKey (link s) (fun c t => receiveChar t c)

/-- TRAP x21, OUT (R122). -/
def execTrapOut (s : State) : Host.Outcome State Fault Refusal :=
  .next (conOut (link s) [lowByte ((link s).reg 0)])

/-- TRAP x22, PUTS (R123). -/
def execTrapPuts (s : State) : Host.Outcome State Fault Refusal :=
  putString putsBytes (link s)

/-- TRAP x23, IN (R124): prompt, read, echo, store, flags, in this order. -/
def execTrapIn (s : State) : Host.Outcome State Fault Refusal :=
  withKey (conOut (link s) Config.inPrompt) (fun c t => receiveChar (conOut t [c]) c)

/-- TRAP x24, PUTSP (R125). -/
def execTrapPutsp (s : State) : Host.Outcome State Fault Refusal :=
  putString putspBytes (link s)

/-- TRAP x25, HALT (R126): the notice, then status HALTED. -/
def execTrapHalt (s : State) : Host.Outcome State Fault Refusal :=
  .next (haltRun (conOut (link s) Config.haltNotice))

/-- TRAP with an unrecognised vector (R127): R7 is written, then the exception is taken. -/
def execTrapUnrecognised (vector : Byte) (s : State) : Host.Outcome State Fault Refusal :=
  .next (raiseInvalid (link s) (.trapVector vector) (Opcode.numeral .trap) (faultAddr s))

/-- RTI (R128): the exception, nothing else. -/
def execRti (s : State) : Host.Outcome State Fault Refusal :=
  .next (raiseInvalid s .rti (Opcode.numeral .rti) (faultAddr s))

/-- RES (R129): the exception, nothing else. -/
def execRes (s : State) : Host.Outcome State Fault Refusal :=
  .next (raiseInvalid s .res (Opcode.numeral .res) (faultAddr s))

end Sys2Proof.Machine
end

