-- ==== Sys2Proof/Machine/Step.lean ====
section
/-! DEFINITION. The step (spec/70_reset_and_hazards.md R160): fetch, increment, decode, execute with the flag update. A
machine that is HALTED or ABORTED has no step (R166). -/

namespace Sys2Proof.Machine

/-- One step (R160): one whole instruction. -/
def step (s : State) : Host.Outcome State Fault Refusal :=
  match s.status with
  | .running => exec (decode (fetch s).1) (fetch s).2
  | .halted => .fault .runHalted
  | .aborted => .fault .runAborted

/-- The state with an instruction word stored where the next step fetches. A program is loaded from outside the machine (the
launch, R162); this stands for that load (log entry 13). -/
def State.withFetchWord (s : State) (nbits w : Nat) : State :=
  memWrite s s.pc (BitVec.ofNat 16 (w % 2 ^ nbits))

end Sys2Proof.Machine
end

