-- ==== Sys2Proof/Machine/Launch.lean ====
section
/-! DEFINITION. The launch: the host's act of building the initial state (spec/70_reset_and_hazards.md R161 to R163). It is
the only reset (R161); no state survives from one launch to the next (10_state.md R34). -/

namespace Sys2Proof.Machine

/-- A program image (R5, R162): an origin and the words loaded from it on. -/
structure Image where
  origin : Word
  words : List Word
  deriving DecidableEq, Repr

/-- Words laid down from an address on; a word whose address would exceed 0xFFFF is dropped, not wrapped (R162). -/
def Memory.loadWords (m : Memory) (a : Nat) (words : List Word) : Memory :=
  match words with
  | [] => m
  | w :: rest => if a < 65536 then Memory.loadWords (m.write a w) (a + 1) rest else m

/-- Images laid down in order, a later one over an earlier one (R162). -/
def Memory.loadImages (m : Memory) (images : List Image) : Memory :=
  match images with
  | [] => m
  | image :: rest => Memory.loadImages (m.loadWords image.origin.toNat image.words) rest

/-- The state after a launch (R33, R161): MEM_INIT overlaid with the images, PC at ENTRY, the keyboard as the host supplies
it. `memInit` is MEM_INIT: every function from addresses to words is the reading of some well-formed memory. -/
def State.launch (memInit : Memory) (images : List Image) (entry : Word) (kbd : Keyboard) : State where
  regs := Vector.replicate 8 0x0000
  pc := entry
  cond := .zero
  mem := memInit.loadImages images
  status := .running
  abort := none
  kbd := kbd
  out := []

/-- A launch with exactly one image: ENTRY is that image's origin (R163). -/
def State.launchOne (memInit : Memory) (image : Image) (kbd : Keyboard) : State :=
  State.launch memInit [image] image.origin kbd

end Sys2Proof.Machine
end

