-- ==== Sys2Proof/Safety.lean ====
section
/-! DEFINITION. What counts as a safe run, and the terms the statements are made in: the invariant, the frame of a step, what
an instruction may write, the sequence of reads of a string routine. -/

namespace Sys2Proof.Machine

/-! ## The end of a run (R165) -/

/-- A run has ended well exactly when status is HALTED (R165); ABORTED is never a good end (R144). -/
def State.endedWell (s : State) : Prop := s.status = .halted

/-- `t` stands in the run from `s`: some number of steps leads there (R165). -/
def Reaches (s t : State) : Prop := ∃ k, Host.Core.run Sys2Proof.core k s = .next t

/-! ## The invariant -/

/-- The opcode value that goes with a cause (R140): 8, 13, 15. -/
def AbortCause.opcode : AbortCause → BitVec 4
  | .rti => 8
  | .res => 13
  | .trapVector _ => 15

/-- What the abort record of an ABORTED state says (R28, R141, R142): the opcode of its cause, the address before `pc`, and
for TRAP_VECTOR an unrecognised vector, with R7 written. -/
def AbortRecord.sound (r : AbortRecord) (s : State) : Prop :=
  r.opcode = r.cause.opcode ∧ r.addr + 1 = s.pc ∧
    ∀ v, r.cause = .trapVector v → (v.toNat < 0x20 ∨ 0x25 < v.toNat) ∧ s.reg 7 = s.pc

/-- The abort record is absent while status is RUNNING or HALTED, and present and sound when it is ABORTED (R28). -/
def abortSound (s : State) : Prop :=
  match s.status, s.abort with
  | .running, none => True
  | .halted, none => True
  | .aborted, some r => r.sound s
  | .running, some _ => False
  | .halted, some _ => False
  | .aborted, none => False

/-- The invariant of the machine: memory in its canonical form (20_memory.md R40), the abort record as R28 says. -/
structure Inv (s : State) : Prop where
  memWf : s.mem.wf
  abortSound : abortSound s

/-! ## Frames -/

/-- Every register outside `ds` is unchanged. -/
def sameRegsBut (ds : List Reg) (s t : State) : Prop := ∀ i, i ∉ ds → t.reg i = s.reg i

/-- Every word of memory outside `ws` reads as before. -/
def sameMemoryBut (ws : List Word) (s t : State) : Prop := ∀ a, a ∉ ws → t.memWord a = s.memWord a

/-- Every word of memory reads as before. -/
def sameMemory (s t : State) : Prop := ∀ a, t.memWord a = s.memWord a

/-- Status and abort record are unchanged. -/
def sameRun (s t : State) : Prop := t.status = s.status ∧ t.abort = s.abort

/-- Keyboard input and console output are unchanged. -/
def sameDevices (s t : State) : Prop := t.kbd = s.kbd ∧ t.out = s.out

/-- Beyond PC and COND, only the registers in `ds` may differ: other registers, memory, status, abort record, keyboard and
console are unchanged. -/
def changesOnlyRegs (ds : List Reg) (s t : State) : Prop :=
  sameRegsBut ds s t ∧ sameMemory s t ∧ sameRun s t ∧ sameDevices s t

/-- What one `MemRead` at `a` does to memory and keyboard between `s` and `t`, said word by word (R43): nothing unless
`a` is 0xFE00; there, one answer is taken from the keyboard, and KBSR (and with a key KBDR) is stored. -/
def readEffect (a : Word) (s t : State) : Prop :=
  if a = kbsrAddr then
    sameMemoryBut [kbsrAddr, kbdrAddr] s t ∧ t.kbd = s.kbd.poll.2 ∧
      match s.kbd.poll.1 with
      | some c => t.memWord kbsrAddr = 0x8000 ∧ t.memWord kbdrAddr = c.setWidth 16
      | none => t.memWord kbsrAddr = 0x0000 ∧ t.memWord kbdrAddr = s.memWord kbdrAddr
  else sameMemory s t ∧ t.kbd = s.kbd

end Sys2Proof.Machine

namespace Sys2Proof

open Sys2Proof.Machine

/-! ## What an instruction may write and read -/

/-- The registers an instruction writes (R21, R22): DR, R7 as link register, R0 of GETC and IN. -/
def Instr.writes : Instr → List Reg
  | .addReg dr _ _ => [dr]
  | .addImm dr _ _ => [dr]
  | .andReg dr _ _ => [dr]
  | .andImm dr _ _ => [dr]
  | .not dr _ => [dr]
  | .br _ _ _ _ => []
  | .jmp _ => []
  | .jsr _ => [7]
  | .jsrr _ => [7]
  | .ld dr _ => [dr]
  | .ldi dr _ => [dr]
  | .ldr dr _ _ => [dr]
  | .lea dr _ => [dr]
  | .st _ _ => []
  | .sti _ _ => []
  | .str _ _ _ => []
  | .trapGetc => [7, 0]
  | .trapOut => [7]
  | .trapPuts => [7]
  | .trapIn => [7, 0]
  | .trapPutsp => [7]
  | .trapHalt => [7]
  | .trapUnrecognised _ => [7]
  | .rti => []
  | .res => []

/-- The register whose new value sets COND (R26): DR of the register-defining instructions, R0 of GETC and IN. -/
def Instr.setsCondFrom : Instr → Option Reg
  | .addReg dr _ _ => some dr
  | .addImm dr _ _ => some dr
  | .andReg dr _ _ => some dr
  | .andImm dr _ _ => some dr
  | .not dr _ => some dr
  | .br _ _ _ _ => none
  | .jmp _ => none
  | .jsr _ => none
  | .jsrr _ => none
  | .ld dr _ => some dr
  | .ldi dr _ => some dr
  | .ldr dr _ _ => some dr
  | .lea dr _ => some dr
  | .st _ _ => none
  | .sti _ _ => none
  | .str _ _ _ => none
  | .trapGetc => some 0
  | .trapOut => none
  | .trapPuts => none
  | .trapIn => some 0
  | .trapPutsp => none
  | .trapHalt => none
  | .trapUnrecognised _ => none
  | .rti => none
  | .res => none

/-- The instructions that write the incremented PC to R7 (R22): JSR, JSRR and every TRAP. -/
def Instr.links : Instr → Bool
  | .addReg _ _ _ => false
  | .addImm _ _ _ => false
  | .andReg _ _ _ => false
  | .andImm _ _ _ => false
  | .not _ _ => false
  | .br _ _ _ _ => false
  | .jmp _ => false
  | .jsr _ => true
  | .jsrr _ => true
  | .ld _ _ => false
  | .ldi _ _ => false
  | .ldr _ _ _ => false
  | .lea _ _ => false
  | .st _ _ => false
  | .sti _ _ => false
  | .str _ _ _ => false
  | .trapGetc => true
  | .trapOut => true
  | .trapPuts => true
  | .trapIn => true
  | .trapPutsp => true
  | .trapHalt => true
  | .trapUnrecognised _ => true
  | .rti => false
  | .res => false

/-- The four instructions that can set `pc` to anything but the incremented PC (R95). -/
def Instr.isTransfer : Instr → Bool
  | .br _ _ _ _ => true
  | .jmp _ => true
  | .jsr _ => true
  | .jsrr _ => true
  | .addReg _ _ _ => false
  | .addImm _ _ _ => false
  | .andReg _ _ _ => false
  | .andImm _ _ _ => false
  | .not _ _ => false
  | .ld _ _ => false
  | .ldi _ _ => false
  | .ldr _ _ _ => false
  | .lea _ _ => false
  | .st _ _ => false
  | .sti _ _ => false
  | .str _ _ _ => false
  | .trapGetc => false
  | .trapOut => false
  | .trapPuts => false
  | .trapIn => false
  | .trapPutsp => false
  | .trapHalt => false
  | .trapUnrecognised _ => false
  | .rti => false
  | .res => false

/-- The instructions that can write to the console (R30): OUT, PUTS, IN, PUTSP, HALT. -/
def Instr.writesConsole : Instr → Bool
  | .trapOut => true
  | .trapPuts => true
  | .trapIn => true
  | .trapPutsp => true
  | .trapHalt => true
  | .addReg _ _ _ => false
  | .addImm _ _ _ => false
  | .andReg _ _ _ => false
  | .andImm _ _ _ => false
  | .not _ _ => false
  | .br _ _ _ _ => false
  | .jmp _ => false
  | .jsr _ => false
  | .jsrr _ => false
  | .ld _ _ => false
  | .ldi _ _ => false
  | .ldr _ _ _ => false
  | .lea _ _ => false
  | .st _ _ => false
  | .sti _ _ => false
  | .str _ _ _ => false
  | .trapGetc => false
  | .trapUnrecognised _ => false
  | .rti => false
  | .res => false

/-- The address an instruction stores to, in the state its meaning runs in (R105 to R107); no other instruction stores. -/
def Instr.storeAddr (s : State) : Instr → Option Word
  | .st _ off9 => some (pcRelative9 s off9)
  | .sti _ off9 => some (memRead s (pcRelative9 s off9)).1
  | .str _ base off6 => some (baseOffset s base off6)
  | .addReg _ _ _ => none
  | .addImm _ _ _ => none
  | .andReg _ _ _ => none
  | .andImm _ _ _ => none
  | .not _ _ => none
  | .br _ _ _ _ => none
  | .jmp _ => none
  | .jsr _ => none
  | .jsrr _ => none
  | .ld _ _ => none
  | .ldi _ _ => none
  | .ldr _ _ _ => none
  | .lea _ _ => none
  | .trapGetc => none
  | .trapOut => none
  | .trapPuts => none
  | .trapIn => none
  | .trapPutsp => none
  | .trapHalt => none
  | .trapUnrecognised _ => none
  | .rti => none
  | .res => none

/-- Whether an instruction's own reads include one of 0xFE00, in the state its meaning runs in (R46, R49). For PUTS and PUTSP:
the pointer comes to 0xFE00 before it meets a zero word. GETC and IN do not go through KBSR (R121, R124). -/
def Instr.readsKbsr (s : State) : Instr → Prop
  | .ld _ off9 => pcRelative9 s off9 = kbsrAddr
  | .ldi _ off9 => pcRelative9 s off9 = kbsrAddr ∨ s.memWord (pcRelative9 s off9) = kbsrAddr
  | .ldr _ base off6 => baseOffset s base off6 = kbsrAddr
  | .sti _ off9 => pcRelative9 s off9 = kbsrAddr
  | .trapPuts => ∃ n : Nat, s.reg 0 + BitVec.ofNat 16 n = kbsrAddr ∧ ∀ k < n, s.memWord (s.reg 0 + BitVec.ofNat 16 k) ≠ 0
  | .trapPutsp => ∃ n : Nat, s.reg 0 + BitVec.ofNat 16 n = kbsrAddr ∧ ∀ k < n, s.memWord (s.reg 0 + BitVec.ofNat 16 k) ≠ 0
  | .addReg _ _ _ => False
  | .addImm _ _ _ => False
  | .andReg _ _ _ => False
  | .andImm _ _ _ => False
  | .not _ _ => False
  | .br _ _ _ _ => False
  | .jmp _ => False
  | .jsr _ => False
  | .jsrr _ => False
  | .lea _ _ => False
  | .st _ _ => False
  | .str _ _ _ => False
  | .trapGetc => False
  | .trapOut => False
  | .trapIn => False
  | .trapHalt => False
  | .trapUnrecognised _ => False
  | .rti => False
  | .res => False

/-- Whether an instruction asks the keyboard (R15, R44, R121, R124): GETC and IN do, and whatever reads the word at 0xFE00. -/
def Instr.asksKeyboard (s : State) (i : Instr) : Prop := i = .trapGetc ∨ i = .trapIn ∨ i.readsKbsr s

end Sys2Proof

namespace Sys2Proof.Machine

/-! ## Images, and the reads of a string routine -/

/-- The word an image lays down at an address, if it covers it: word i at origin + i, and none past 0xFFFF (R162). -/
def Image.wordAt (image : Image) (a : Word) : Option Word :=
  if image.origin.toNat ≤ a.toNat then image.words[a.toNat - image.origin.toNat]? else none

/-- The state after `n` reads at `a`, `a + 1`, … modulo 65536 (R123, R125). -/
def readsFrom (s : State) (a : Word) : Nat → State
  | 0 => s
  | n + 1 => (memRead (readsFrom s a n) (a + BitVec.ofNat 16 n)).2

/-- The word that read number `n` (from 0) of that sequence returns. -/
def wordRead (s : State) (a : Word) (n : Nat) : Word := (memRead (readsFrom s a n) (a + BitVec.ofNat 16 n)).1

end Sys2Proof.Machine
end

