-- ==== Sys2Proof/Certificates/Slice0/Obligations.lean ====
section
/-! DEFINITION. The statements for the provers: what the instructions and the machine do, from the numbered rules of spec/.

A statement about an instruction gives the words that decode to it, says that `exec` ANSWERS a next state in every state
that meets the hypotheses on state and operands alone, gives that state, and gives its frame. In `exec i s` the state `s` is
the one after the fetch: `s.pc` is the incremented PC (R23). -/

open Sys2Proof Sys2Proof.Machine

/-! ## Encoding -/

/-- 30_encoding.md section 5, with the spec's decision D3: the encoder writes canonical words, decoding gives the instruction
and its fields back, and decoding then encoding gives the same word exactly for canonical words (uncovered bits 0, and 111111
in NOT, as R70 writes them). -/
def Obligations.DecodeEncodeRoundTrip : Prop :=
  (∀ i : Instr, i.wellFormed = true → decode (encode i) = i) ∧
  (∀ w : Word, encode (decode w) = w ↔
    w &&& uncoveredBits w = if w.extractLsb' 12 4 = 0x9#4 then 0x003F else 0x0000) ∧
  (∀ w : Word, decode (encode (decode w)) = decode w)

/-- 30_encoding.md section 3 and opcode_table.json: every word decodes to a well-formed instruction, whose row is the first
row of the opcode table that the word matches; a word matches one row, and a named TRAP word also the catch-all, so apart
from that no two rows overlap. -/
def Obligations.DecoderSelectsFirstTableRow : Prop :=
  ∀ w : Word, (decode w).wellFormed = true ∧
    opcodeRows.findIdx? (fun row => row.fits w) = some (decode w).rowIndex ∧
    (opcodeRows.filter (fun row => row.fits w)).length =
      if w.extractLsb' 12 4 = 0xF#4 ∧ 0x20 ≤ (w.extractLsb' 0 8).toNat ∧ (w.extractLsb' 0 8).toNat ≤ 0x25 then 2 else 1

/-- 30_encoding.md section 4, the spec's decision D3: changing bits that no field covers, in any way, changes nothing of what
the word decodes to. -/
def Obligations.UncoveredBitsAreIgnored : Prop :=
  ∀ w m : Word, decode (w ^^^ (m &&& uncoveredBits w)) = decode w

/-- Words written out in the spec (95_test_vectors.md section 2.2) decode to the instructions they stand for. -/
def Obligations.SpecWordsDecode : Prop :=
  decode 0x0FFF = .br true true true 0x1FF ∧ decode 0x1642 = .addReg 3 1 2 ∧ decode 0x147D = .addImm 2 1 0x1D ∧
  decode 0x923F = .not 1 0 ∧ decode 0xC1C0 = .jmp 7 ∧ decode 0x4810 = .jsr 0x010 ∧ decode 0x4080 = .jsrr 2 ∧
  decode 0x62BF = .ldr 1 2 0x3F ∧ decode 0xB201 = .sti 1 0x001 ∧ decode 0xF025 = .trapHalt ∧
  decode 0xF026 = .trapUnrecognised 0x26 ∧ decode 0x8000 = .rti ∧ decode 0xDFFF = .res

/-- 30_encoding.md section 4: exactly three classes of word are illegal. In a RUNNING machine a word ends the run in ABORTED
exactly when its opcode is 0x8, or 0xD, or 0xF with a vector outside 0x20 to 0x25. -/
def Obligations.ExactlyThreeClassesAreIllegal : Prop :=
  ∀ (w : Word) (s : State), s.status = .running →
    ((∃ t, exec (decode w) s = .next t ∧ t.status = .aborted) ↔
      w.extractLsb' 12 4 = 0x8#4 ∨ w.extractLsb' 12 4 = 0xD#4 ∨
        (w.extractLsb' 12 4 = 0xF#4 ∧ ((w.extractLsb' 0 8).toNat < 0x20 ∨ 0x25 < (w.extractLsb' 0 8).toNat)))

/-! ## Shared operations -/

/-- R8: `sext_N(v)` is v when bit N-1 is 0, and v + (65536 - 2^N) when it is 1, for N = 5, 6, 9, 11. -/
def Obligations.SignExtensionOfFields : Prop :=
  (∀ v : BitVec 5, (sext v).toNat = if v.getLsbD 4 then v.toNat + (65536 - 2 ^ 5) else v.toNat) ∧
  (∀ v : BitVec 6, (sext v).toNat = if v.getLsbD 5 then v.toNat + (65536 - 2 ^ 6) else v.toNat) ∧
  (∀ v : BitVec 9, (sext v).toNat = if v.getLsbD 8 then v.toNat + (65536 - 2 ^ 9) else v.toNat) ∧
  (∀ v : BitVec 11, (sext v).toNat = if v.getLsbD 10 then v.toNat + (65536 - 2 ^ 11) else v.toNat)

/-- 40_operate.md, the updater of R86: `setcc(i)` makes COND NEG when bit 15 of register i is 1, else ZERO when the register
is 0, else POS; it depends on nothing else and changes nothing else. -/
def Obligations.ConditionFlagUpdater : Prop :=
  (∀ (s : State) (i : Reg),
    (setcc s i).cond = (if (s.reg i).getLsbD 15 then .neg else if s.reg i = 0x0000 then .zero else .pos) ∧
      (setcc s i).pc = s.pc ∧ changesOnlyRegs [] s (setcc s i)) ∧
  (∀ v : Word, (condOf v = .zero ↔ v.toNat = 0) ∧ (condOf v = .pos ↔ 1 ≤ v.toNat ∧ v.toNat ≤ 0x7FFF) ∧
    (condOf v = .neg ↔ 0x8000 ≤ v.toNat))

/-- R42: `MemWrite(a, 16, v)` stores v at a, at every address, 0xFE00 and 0xFE02 among them, and does nothing else. -/
def Obligations.MemWriteStoresOneWord : Prop :=
  ∀ (s : State) (a v : Word), (memWrite s a v).memWord a = v ∧ sameMemoryBut [a] s (memWrite s a v) ∧
    sameRegsBut [] s (memWrite s a v) ∧ (memWrite s a v).pc = s.pc ∧ (memWrite s a v).cond = s.cond ∧
    sameRun s (memWrite s a v) ∧ sameDevices s (memWrite s a v)

/-- R43: `MemRead(a, 16)`. At 0xFE00 it polls: with a key c, 0xFE00 becomes 0x8000 and 0xFE02 becomes c zero-extended; with
none, 0xFE00 becomes 0x0000. Then it returns the stored word. At every other address it changes nothing. -/
def Obligations.MemReadPollsAtKeyboardStatus : Prop :=
  ∀ (s : State) (a : Word), (memRead s a).1 = (memRead s a).2.memWord a ∧ readEffect a s (memRead s a).2 ∧
    (a ≠ kbsrAddr → (memRead s a).2 = s) ∧ sameRegsBut [] s (memRead s a).2 ∧ (memRead s a).2.pc = s.pc ∧
    (memRead s a).2.cond = s.cond ∧ sameRun s (memRead s a).2 ∧ (memRead s a).2.out = s.out ∧
    kbsrAddr = 0xFE00 ∧ kbdrAddr = 0xFE02

/-- 20_memory.md section 2: a read of 0xFE00 returns 0x8000 or 0x0000 whatever was stored there, 0x8000 exactly when the poll
finds a key; a stored value is never returned; and a second read polls anew. -/
def Obligations.KeyboardStatusIsPolledEachRead : Prop :=
  ∀ (s : State) (v : Word),
    (memRead s 0xFE00).1 = (if s.kbd.poll.1.isSome then 0x8000 else 0x0000) ∧
    (memRead (memWrite s 0xFE00 v) 0xFE00).1 = (memRead s 0xFE00).1 ∧
    (memRead (memRead s 0xFE00).2 0xFE00).1 = (if s.kbd.poll.2.poll.1.isSome then 0x8000 else 0x0000) ∧
    (memRead (memRead s 0xFE00).2 0xFE00).2.kbd = s.kbd.poll.2.poll.2

/-- 20_memory.md section 2, the spec's decision D20: a read of 0xFE02 returns the stored word and has no side effect. The
word changes only by a read of 0xFE00 whose poll finds a key, or by a write to 0xFE02: access by access, and step by step. -/
def Obligations.KeyboardDataWordIsPlain : Prop :=
  (∀ s : State, memRead s 0xFE02 = (s.memWord 0xFE02, s)) ∧
  (∀ (s : State) (a : Word), (memRead s a).2.memWord 0xFE02 ≠ s.memWord 0xFE02 → a = 0xFE00 ∧ s.kbd.poll.1 ≠ none) ∧
  (∀ (s : State) (a v : Word), (memWrite s a v).memWord 0xFE02 ≠ s.memWord 0xFE02 → a = 0xFE02) ∧
  (∀ s t : State, step s = .next t → t.memWord 0xFE02 ≠ s.memWord 0xFE02 →
    s.pc = 0xFE00 ∨ (decode (fetch s).1).storeAddr (fetch s).2 = some 0xFE02 ∨
      (decode (fetch s).1).readsKbsr (fetch s).2)

/-- 20_memory.md section 5: a load after a store returns the stored word at its address and the old word elsewhere, except
at 0xFE00, and a later store to another address does not disturb it. -/
def Obligations.LoadAfterStore : Prop :=
  ∀ (s : State) (a b v w : Word), b ≠ 0xFE00 →
    (memRead (memWrite s a v) b).1 = (if b = a then v else (memRead s b).1) ∧
    (a ≠ b → (memRead (memWrite (memWrite s b v) a w) b).1 = v)

/-- The model's own choice (log entry 4) of how the keyboard is held: polls and gets draw from one script, a poll takes its
first answer, a get its first character, and after the script come the stretches of the tail, if it has any. -/
def Obligations.KeyboardSharesOneInput : Prop :=
  (∀ (c : Byte) (later : List (Option Byte)) (tail : KeyTail),
    Keyboard.poll ⟨some c :: later, tail⟩ = (some c, ⟨later, tail⟩) ∧
    Keyboard.get ⟨some c :: later, tail⟩ = some (c, ⟨later, tail⟩) ∧
    Keyboard.poll ⟨none :: later, tail⟩ = (none, ⟨later, tail⟩) ∧
    Keyboard.get ⟨none :: later, tail⟩ = Keyboard.get ⟨later, tail⟩) ∧
  Keyboard.poll ⟨[], .silent⟩ = (none, ⟨[], .silent⟩) ∧
  (∀ tail : KeyTail, tail ≠ .silent →
    Keyboard.poll ⟨[], tail⟩ = Keyboard.poll ⟨tail.stretch, tail.next⟩ ∧
    Keyboard.get ⟨[], tail⟩ = Keyboard.get ⟨tail.stretch, tail.next⟩) ∧
  (∀ k : Keyboard, k.get = none ↔ k.tail = .silent ∧ ∀ a ∈ k.script, a = none)

/-! ## Memory as data -/

/-- The canonical form is canonical: two memories in it that read alike at every address are the same list. -/
def Obligations.CanonicalMemoriesReadingAlikeAreEqual : Prop :=
  ∀ m₁ m₂ : Memory, m₁.wf → m₂.wf → (∀ a : Word, m₁.read a.toNat = m₂.read a.toNat) → m₁ = m₂

/-- Every MEM_INIT, that is every function from addresses to words (R5), is the reading of a memory in canonical form: a
claim about every launch memory of the model is a claim for every MEM_INIT. -/
def Obligations.EveryMemInitIsAMemory : Prop :=
  ∀ f : Word → Word, ∃ m : Memory, m.wf ∧ ∀ a : Word, m.read a.toNat = f a

/-! ## Launch and reset -/

/-- 70_reset_and_hazards.md section 2, the spec's decisions D15 and D22: what a launch leaves. PC is ENTRY, and with one
image its origin. -/
def Obligations.LaunchState : Prop :=
  ∀ (memInit : Memory) (images : List Image) (entry : Word) (kbd : Keyboard) (image : Image),
    (∀ i : Reg, (State.launch memInit images entry kbd).reg i = 0x0000) ∧
    (State.launch memInit images entry kbd).pc = entry ∧ (State.launch memInit images entry kbd).cond = .zero ∧
    (State.launch memInit images entry kbd).status = .running ∧ (State.launch memInit images entry kbd).abort = none ∧
    (State.launch memInit images entry kbd).out = [] ∧ (State.launch memInit images entry kbd).kbd = kbd ∧
    State.launchOne memInit image kbd = State.launch memInit [image] image.origin kbd

/-- 70_reset_and_hazards.md section 2, the spec's decision D14: a word of launch memory is the one the last image covering it
lays there, else MEM_INIT's; words past 0xFFFF are dropped and not wrapped. -/
def Obligations.LaunchMemory : Prop :=
  ∀ (memInit : Memory) (images : List Image) (entry : Word) (kbd : Keyboard) (a : Word),
    (State.launch memInit images entry kbd).memWord a =
      (images.reverse.findSome? (fun image => image.wordAt a)).getD (memInit.read a.toNat)

/-- The reset state: what the spec gives (registers 0x0000, COND ZERO, RUNNING, no abort record, no output, R33), and the
model's own choices for the launch parameters: PC 0x3000 (log entry 3), memory reading 0x0000 (log entry 2), a keyboard that
delivers nothing (log entry 5). -/
def Obligations.ResetState : Prop :=
  (∀ i : Reg, State.reset.reg i = 0x0000) ∧ State.reset.cond = .zero ∧ State.reset.status = .running ∧
  State.reset.abort = none ∧ State.reset.out = [] ∧ State.reset.pc = 0x3000 ∧
  (∀ a : Word, State.reset.memWord a = 0x0000) ∧ State.reset.kbd = ⟨[], .silent⟩

/-! ## The step -/

/-- 70_reset_and_hazards.md section 1: a RUNNING machine reads the word at PC, moves PC past it, and runs the instruction
the word decodes to. When the word is not fetched from 0xFE00 the read is plain. -/
def Obligations.StepRunsTheDecodedInstruction : Prop :=
  ∀ s : State, s.status = .running →
    step s = exec (decode (memRead s s.pc).1) ((memRead s s.pc).2.setPc (s.pc + 1)) ∧
    (s.pc ≠ 0xFE00 → ∀ i : Instr, i.wellFormed = true → decode (s.memWord s.pc) = i →
      step s = exec i (s.setPc (s.pc + 1)))

/-- 20_memory.md section 5: a fetch from 0xFE00 polls. With no key it runs the word 0x0000, which only advances PC; with a
key it runs 0x8000, RTI, which aborts. The stored word is not executed. -/
def Obligations.FetchFromKeyboardStatusPolls : Prop :=
  ∀ s : State, s.status = .running → s.pc = 0xFE00 → ∃ t, step s = .next t ∧ t.pc = 0xFE01 ∧
    sameRegsBut [] s t ∧ t.cond = s.cond ∧ t.out = s.out ∧ readEffect 0xFE00 s t ∧
    (s.kbd.poll.1 = none → t.status = .running ∧ t.abort = s.abort) ∧
    (s.kbd.poll.1 ≠ none → t.status = .aborted ∧ t.abort = some ⟨.rti, 8, 0xFE00⟩)

/-- 20_memory.md section 5: self-modifying code works. A ST with offset 0 stores over the next instruction, and the very next
step runs the stored word. -/
def Obligations.StoreIsSeenByTheNextFetch : Prop :=
  ∀ (s : State) (sr : Reg), s.status = .running → s.pc ≠ 0xFE00 → s.pc + 1 ≠ 0xFE00 →
    decode (s.memWord s.pc) = .st sr 0 →
    ∃ t, step s = .next t ∧ t.pc = s.pc + 1 ∧ t.memWord (s.pc + 1) = s.reg sr ∧
      step t = exec (decode (s.reg sr)) (t.setPc (s.pc + 2))

/-- 70_reset_and_hazards.md section 3: in HALTED and in ABORTED the agent has no step. That its absence is a fault with a name
is the model's choice (log entry 10). -/
def Obligations.NoStepAfterTheEnd : Prop :=
  ∀ s : State, (s.status = .halted → step s = .fault .runHalted) ∧ (s.status = .aborted → step s = .fault .runAborted) ∧
    (s.status ≠ .running → ∀ t, step s ≠ .next t)

/-- 60_exceptions.md section 4: every way a step of a RUNNING machine can fail to produce a next RUNNING state: HALT ends it
HALTED, an invalid instruction ends it ABORTED, GETC or IN with no character is held, PUTS or PUTSP that reads no zero word
never completes. There is no fifth way. That the last two are faults with names is the model's choice (log entries 8 and 9).
-/
def Obligations.OnlyTheseStepsDoNotGoOn : Prop :=
  ∀ s : State, s.status = .running →
    (∀ r, step s ≠ .refused r) ∧
    (∀ t, step s = .next t →
      (t.status = .running ↔
        decode (fetch s).1 ≠ .trapHalt ∧ decode (fetch s).1 ≠ .rti ∧ decode (fetch s).1 ≠ .res ∧
          ∀ v, decode (fetch s).1 ≠ .trapUnrecognised v) ∧
      (t.status = .halted ↔ decode (fetch s).1 = .trapHalt)) ∧
    (∀ f, step s = .fault f →
      (f = .heldForKeyboard ∧ (decode (fetch s).1 = .trapGetc ∨ decode (fetch s).1 = .trapIn) ∧
        (fetch s).2.kbd.get = none) ∨
      (f = .stringNeverEnds ∧ (decode (fetch s).1 = .trapPuts ∨ decode (fetch s).1 = .trapPutsp) ∧
        ∀ n, wordRead (fetch s).2 ((fetch s).2.reg 0) n ≠ 0x0000))

/-- 60_exceptions.md section 1, the spec's decision D13: the state in which an invalid instruction ends the run. PC is the
incremented PC; the record has the cause, the opcode of the word, and the address it was fetched from; R0 to R6, COND, output
and memory are as before the step, but for what the fetch did if it was from 0xFE00; R7 is as before for RTI and RES and the
incremented PC for TRAP_VECTOR. -/
def Obligations.AbortTransition : Prop :=
  ∀ s t : State, s.status = .running → step s = .next t → t.status = .aborted →
    t.pc = s.pc + 1 ∧ sameRegsBut [7] s t ∧ t.cond = s.cond ∧ t.out = s.out ∧ readEffect s.pc s t ∧
    ∃ cause : AbortCause, t.abort = some ⟨cause, (memRead s s.pc).1.extractLsb' 12 4, s.pc⟩ ∧
      match cause with
      | .rti => (memRead s s.pc).1.extractLsb' 12 4 = 8#4 ∧ t.reg 7 = s.reg 7
      | .res => (memRead s s.pc).1.extractLsb' 12 4 = 13#4 ∧ t.reg 7 = s.reg 7
      | .trapVector v => (memRead s s.pc).1.extractLsb' 12 4 = 15#4 ∧ v = (memRead s s.pc).1.extractLsb' 0 8 ∧
          t.reg 7 = s.pc + 1

/-! ## Invariants and whole-machine rules -/

/-- Every step keeps the invariant: memory in its canonical form, the abort record absent while RUNNING or HALTED, and
present and sound when ABORTED (10_state.md section 5). -/
def Obligations.StepKeepsInvariant : Prop :=
  ∀ s t : State, Inv s → step s = .next t → Inv t

/-- The reset state meets the invariant. -/
def Obligations.ResetMeetsInvariant : Prop := Inv State.reset

/-- Every launch over a MEM_INIT in canonical form meets the invariant, so it holds along every run. -/
def Obligations.LaunchedRunsMeetInvariant : Prop :=
  ∀ (memInit : Memory) (images : List Image) (entry : Word) (kbd : Keyboard) (t : State), memInit.wf →
    Reaches (State.launch memInit images entry kbd) t → Inv t

/-- 10_state.md section 6: nothing removes or rewrites a byte of the output; only OUT, PUTS, IN, PUTSP and HALT add to it. -/
def Obligations.OutputOnlyGrows : Prop :=
  ∀ s t : State, step s = .next t → ∃ bytes, t.out = s.out ++ bytes ∧
    ((decode (fetch s).1).writesConsole = false → bytes = [])

/-- 41_control.md section on control transfer: only BR, JMP, JSR and JSRR set PC to anything but the incremented PC; TRAP
does not transfer control, and an aborting instruction leaves the incremented PC. -/
def Obligations.OnlyTransfersSetPc : Prop :=
  ∀ s t : State, step s = .next t → (decode (fetch s).1).isTransfer = false → t.pc = s.pc + 1

/-- 10_state.md section 4: COND is written by ADD, AND, NOT, LD, LDI, LDR, LEA from DR and by GETC and IN from R0, and by
nothing else. -/
def Obligations.OnlyRegisterDefinersSetCond : Prop :=
  ∀ s t : State, step s = .next t →
    (∀ i, (decode (fetch s).1).setsCondFrom = some i → t.cond = condOf (t.reg i)) ∧
    ((decode (fetch s).1).setsCondFrom = none → t.cond = s.cond)

/-- 10_state.md section 2: a step writes no register but DR, R7 of JSR, JSRR and TRAP, and R0 of GETC and IN; JSR, JSRR and
every TRAP write the incremented PC to R7. -/
def Obligations.OnlyNamedRegistersAreWritten : Prop :=
  ∀ s t : State, step s = .next t →
    sameRegsBut (decode (fetch s).1).writes s t ∧
    ((decode (fetch s).1).links = true → t.reg 7 = s.pc + 1)

/-- 20_memory.md section 3: a step changes no word but the one its ST, STI or STR stores to and, in a step that reads 0xFE00
(in its fetch or by its instruction), the two keyboard words, which that read stores. -/
def Obligations.OnlyStoresAndPollsChangeMemory : Prop :=
  ∀ s t : State, step s = .next t → ∀ a : Word,
    (decode (fetch s).1).storeAddr (fetch s).2 ≠ some a →
    (a = 0xFE00 ∨ a = 0xFE02 → s.pc ≠ 0xFE00 ∧ ¬ (decode (fetch s).1).readsKbsr (fetch s).2) →
    t.memWord a = s.memWord a

/-- 70_reset_and_hazards.md section 4: the keyboard's answers are the only non-determinism. A step that does not fetch from
0xFE00, does not read that word and is no GETC or IN takes no answer and does not depend on any: with another keyboard it
answers the same. -/
def Obligations.StepIgnoresKeyboardUnlessAsked : Prop :=
  ∀ (s : State) (k : Keyboard), s.pc ≠ 0xFE00 → ¬ (decode (s.memWord s.pc)).asksKeyboard (s.setPc (s.pc + 1)) →
    (∀ t, step s = .next t → t.kbd = s.kbd ∧ step { s with kbd := k } = .next { t with kbd := k }) ∧
    (∀ f, step s = .fault f → step { s with kbd := k } = .fault f)

/-! ## Operate instructions (40_operate.md) -/

/-- R81: ADD, register form. -/
def Obligations.AddRegisterForm : Prop :=
  (∀ w : Word, w.extractLsb' 12 4 = 0x1#4 → w.getLsbD 5 = false →
    decode w = .addReg (w.extractLsb' 9 3).toFin (w.extractLsb' 6 3).toFin (w.extractLsb' 0 3).toFin) ∧
  ∀ (dr sr1 sr2 : Reg) (s : State), ∃ t, exec (.addReg dr sr1 sr2) s = .next t ∧
    t.reg dr = s.reg sr1 + s.reg sr2 ∧ t.cond = condOf (t.reg dr) ∧ t.pc = s.pc ∧ changesOnlyRegs [dr] s t

/-- R82: ADD, immediate form. -/
def Obligations.AddImmediateForm : Prop :=
  (∀ w : Word, w.extractLsb' 12 4 = 0x1#4 → w.getLsbD 5 = true →
    decode w = .addImm (w.extractLsb' 9 3).toFin (w.extractLsb' 6 3).toFin (w.extractLsb' 0 5)) ∧
  ∀ (dr sr1 : Reg) (imm5 : BitVec 5) (s : State), ∃ t, exec (.addImm dr sr1 imm5) s = .next t ∧
    t.reg dr = s.reg sr1 + imm5.signExtend 16 ∧ t.cond = condOf (t.reg dr) ∧ t.pc = s.pc ∧ changesOnlyRegs [dr] s t

/-- R83: AND, register form. -/
def Obligations.AndRegisterForm : Prop :=
  (∀ w : Word, w.extractLsb' 12 4 = 0x5#4 → w.getLsbD 5 = false →
    decode w = .andReg (w.extractLsb' 9 3).toFin (w.extractLsb' 6 3).toFin (w.extractLsb' 0 3).toFin) ∧
  ∀ (dr sr1 sr2 : Reg) (s : State), ∃ t, exec (.andReg dr sr1 sr2) s = .next t ∧
    t.reg dr = s.reg sr1 &&& s.reg sr2 ∧ t.cond = condOf (t.reg dr) ∧ t.pc = s.pc ∧ changesOnlyRegs [dr] s t

/-- R84: AND, immediate form. -/
def Obligations.AndImmediateForm : Prop :=
  (∀ w : Word, w.extractLsb' 12 4 = 0x5#4 → w.getLsbD 5 = true →
    decode w = .andImm (w.extractLsb' 9 3).toFin (w.extractLsb' 6 3).toFin (w.extractLsb' 0 5)) ∧
  ∀ (dr sr1 : Reg) (imm5 : BitVec 5) (s : State), ∃ t, exec (.andImm dr sr1 imm5) s = .next t ∧
    t.reg dr = s.reg sr1 &&& imm5.signExtend 16 ∧ t.cond = condOf (t.reg dr) ∧ t.pc = s.pc ∧ changesOnlyRegs [dr] s t

/-- R85: NOT; each of the 16 bits inverted, 65535 minus the source. -/
def Obligations.NotComplementsSource : Prop :=
  (∀ w : Word, w.extractLsb' 12 4 = 0x9#4 → decode w = .not (w.extractLsb' 9 3).toFin (w.extractLsb' 6 3).toFin) ∧
  ∀ (dr sr : Reg) (s : State), ∃ t, exec (.not dr sr) s = .next t ∧
    t.reg dr = ~~~ s.reg sr ∧ (t.reg dr).toNat = 65535 - (s.reg sr).toNat ∧ t.cond = condOf (t.reg dr) ∧
    t.pc = s.pc ∧ changesOnlyRegs [dr] s t

/-! ## Control-transfer instructions (41_control.md) -/

/-- R90: BR. Taken when n and NEG, z and ZERO, or p and POS; then PC moves by the sign-extended offset from the incremented
PC; nothing else changes. -/
def Obligations.BranchOnCondition : Prop :=
  (∀ w : Word, w.extractLsb' 12 4 = 0x0#4 →
    decode w = .br (w.getLsbD 11) (w.getLsbD 10) (w.getLsbD 9) (w.extractLsb' 0 9)) ∧
  ∀ (n z p : Bool) (off9 : BitVec 9) (s : State), ∃ t, exec (.br n z p off9) s = .next t ∧
    t.pc = (if (n = true ∧ s.cond = .neg) ∨ (z = true ∧ s.cond = .zero) ∨ (p = true ∧ s.cond = .pos)
      then s.pc + off9.signExtend 16 else s.pc) ∧
    t.cond = s.cond ∧ changesOnlyRegs [] s t

/-- R91, and R92 for BaseR = 7: JMP sets PC to the base register and nothing else. -/
def Obligations.JumpThroughRegister : Prop :=
  (∀ w : Word, w.extractLsb' 12 4 = 0xC#4 → decode w = .jmp (w.extractLsb' 6 3).toFin) ∧ decode 0xC1C0 = .jmp 7 ∧
  ∀ (base : Reg) (s : State), ∃ t, exec (.jmp base) s = .next t ∧
    t.pc = s.reg base ∧ t.cond = s.cond ∧ changesOnlyRegs [] s t

/-- R93: JSR writes the incremented PC to R7 and adds the sign-extended offset to PC; COND is left alone. -/
def Obligations.JumpToSubroutine : Prop :=
  (∀ w : Word, w.extractLsb' 12 4 = 0x4#4 → w.getLsbD 11 = true → decode w = .jsr (w.extractLsb' 0 11)) ∧
  ∀ (off11 : BitVec 11) (s : State), ∃ t, exec (.jsr off11) s = .next t ∧
    t.reg 7 = s.pc ∧ t.pc = s.pc + off11.signExtend 16 ∧ t.cond = s.cond ∧ changesOnlyRegs [7] s t

/-- R94: JSRR writes the incremented PC to R7 and THEN reads the base register, so `JSRR R7` goes to the next instruction. -/
def Obligations.JumpToSubroutineRegister : Prop :=
  (∀ w : Word, w.extractLsb' 12 4 = 0x4#4 → w.getLsbD 11 = false → decode w = .jsrr (w.extractLsb' 6 3).toFin) ∧
  ∀ (base : Reg) (s : State), ∃ t, exec (.jsrr base) s = .next t ∧
    t.reg 7 = s.pc ∧ t.pc = (if base = 7 then s.pc else s.reg base) ∧ t.cond = s.cond ∧ changesOnlyRegs [7] s t

/-! ## Data-movement instructions (42_data_movement.md) -/

/-- R101: LD. One MemRead at PC + offset, its word into DR, flags from it. -/
def Obligations.LoadPcRelative : Prop :=
  (∀ w : Word, w.extractLsb' 12 4 = 0x2#4 → decode w = .ld (w.extractLsb' 9 3).toFin (w.extractLsb' 0 9)) ∧
  ∀ (dr : Reg) (off9 : BitVec 9) (s : State), ∃ t, exec (.ld dr off9) s = .next t ∧
    t.reg dr = (memRead s (s.pc + off9.signExtend 16)).1 ∧ t.reg dr = t.memWord (s.pc + off9.signExtend 16) ∧
    readEffect (s.pc + off9.signExtend 16) s t ∧ t.cond = condOf (t.reg dr) ∧ t.pc = s.pc ∧
    sameRegsBut [dr] s t ∧ sameRun s t ∧ t.out = s.out

/-- R102: LDI. The pointer is read first, then the data at it, each read intercepted on its own; flags from the data. -/
def Obligations.LoadIndirect : Prop :=
  (∀ w : Word, w.extractLsb' 12 4 = 0xA#4 → decode w = .ldi (w.extractLsb' 9 3).toFin (w.extractLsb' 0 9)) ∧
  ∀ (dr : Reg) (off9 : BitVec 9) (s m : State) (ptr : Word), memRead s (s.pc + off9.signExtend 16) = (ptr, m) →
    ∃ t, exec (.ldi dr off9) s = .next t ∧
      readEffect (s.pc + off9.signExtend 16) s m ∧ ptr = m.memWord (s.pc + off9.signExtend 16) ∧
      readEffect ptr m t ∧ t.reg dr = t.memWord ptr ∧ t.cond = condOf (t.reg dr) ∧ t.pc = s.pc ∧
      sameRegsBut [dr] s t ∧ sameRun s t ∧ t.out = s.out

/-- R103: LDR. One MemRead at base + offset; the address is formed from the old base register, DR may be the base. -/
def Obligations.LoadBaseOffset : Prop :=
  (∀ w : Word, w.extractLsb' 12 4 = 0x6#4 →
    decode w = .ldr (w.extractLsb' 9 3).toFin (w.extractLsb' 6 3).toFin (w.extractLsb' 0 6)) ∧
  ∀ (dr base : Reg) (off6 : BitVec 6) (s : State), ∃ t, exec (.ldr dr base off6) s = .next t ∧
    t.reg dr = (memRead s (s.reg base + off6.signExtend 16)).1 ∧ t.reg dr = t.memWord (s.reg base + off6.signExtend 16) ∧
    readEffect (s.reg base + off6.signExtend 16) s t ∧ t.cond = condOf (t.reg dr) ∧ t.pc = s.pc ∧
    sameRegsBut [dr] s t ∧ sameRun s t ∧ t.out = s.out

/-- R104: LEA. The address itself into DR, flags from it, no memory access. -/
def Obligations.LoadEffectiveAddress : Prop :=
  (∀ w : Word, w.extractLsb' 12 4 = 0xE#4 → decode w = .lea (w.extractLsb' 9 3).toFin (w.extractLsb' 0 9)) ∧
  ∀ (dr : Reg) (off9 : BitVec 9) (s : State), ∃ t, exec (.lea dr off9) s = .next t ∧
    t.reg dr = s.pc + off9.signExtend 16 ∧ t.cond = condOf (t.reg dr) ∧ t.pc = s.pc ∧ changesOnlyRegs [dr] s t

/-- R105: ST. SR at PC + offset, every other word as before, no register and no flag written. -/
def Obligations.StorePcRelative : Prop :=
  (∀ w : Word, w.extractLsb' 12 4 = 0x3#4 → decode w = .st (w.extractLsb' 9 3).toFin (w.extractLsb' 0 9)) ∧
  ∀ (sr : Reg) (off9 : BitVec 9) (s : State), ∃ t, exec (.st sr off9) s = .next t ∧
    t.memWord (s.pc + off9.signExtend 16) = s.reg sr ∧ sameMemoryBut [s.pc + off9.signExtend 16] s t ∧
    t.pc = s.pc ∧ t.cond = s.cond ∧ sameRegsBut [] s t ∧ sameRun s t ∧ sameDevices s t

/-- R106: STI. The pointer read is intercepted, the store at the pointer is not: every word but the one stored reads as it
did after the pointer read. -/
def Obligations.StoreIndirect : Prop :=
  (∀ w : Word, w.extractLsb' 12 4 = 0xB#4 → decode w = .sti (w.extractLsb' 9 3).toFin (w.extractLsb' 0 9)) ∧
  ∀ (sr : Reg) (off9 : BitVec 9) (s m : State) (ptr : Word), memRead s (s.pc + off9.signExtend 16) = (ptr, m) →
    ∃ t, exec (.sti sr off9) s = .next t ∧
      readEffect (s.pc + off9.signExtend 16) s m ∧ ptr = m.memWord (s.pc + off9.signExtend 16) ∧
      t.memWord ptr = s.reg sr ∧ sameMemoryBut [ptr] m t ∧ t.kbd = m.kbd ∧
      t.pc = s.pc ∧ t.cond = s.cond ∧ sameRegsBut [] s t ∧ sameRun s t ∧ t.out = s.out

/-- R107: STR. SR at base + offset, every other word as before, no register and no flag written. -/
def Obligations.StoreBaseOffset : Prop :=
  (∀ w : Word, w.extractLsb' 12 4 = 0x7#4 →
    decode w = .str (w.extractLsb' 9 3).toFin (w.extractLsb' 6 3).toFin (w.extractLsb' 0 6)) ∧
  ∀ (sr base : Reg) (off6 : BitVec 6) (s : State), ∃ t, exec (.str sr base off6) s = .next t ∧
    t.memWord (s.reg base + off6.signExtend 16) = s.reg sr ∧ sameMemoryBut [s.reg base + off6.signExtend 16] s t ∧
    t.pc = s.pc ∧ t.cond = s.cond ∧ sameRegsBut [] s t ∧ sameRun s t ∧ sameDevices s t

/-! ## TRAP and the reserved opcodes (43_trap_reserved.md) -/

/-- 43_trap_reserved.md, GETC (R121; the spec's decisions D8, D9, and log entry 8 for the held step): GETC takes one
character into R0 zero-extended, sets the flags (ZERO for 0x00, else POS), writes R7, and echoes nothing; with no character
to come the step is held. -/
def Obligations.TrapGetcReadsACharacter : Prop :=
  (∀ w : Word, w.extractLsb' 12 4 = 0xF#4 → w.extractLsb' 0 8 = 0x20#8 → decode w = .trapGetc) ∧
  ∀ s : State,
    (∀ (c : Byte) (k : Keyboard), s.kbd.get = some (c, k) → ∃ t, exec .trapGetc s = .next t ∧
      t.reg 0 = c.setWidth 16 ∧ t.reg 7 = s.pc ∧ t.cond = (if c = 0x00 then .zero else .pos) ∧ t.kbd = k ∧
      t.out = s.out ∧ t.pc = s.pc ∧ sameRegsBut [0, 7] s t ∧ sameMemory s t ∧ sameRun s t) ∧
    (s.kbd.get = none → exec .trapGetc s = .fault .heldForKeyboard)

/-- R122: OUT sends the low byte of R0 to the console and writes R7. -/
def Obligations.TrapOutWritesLowByte : Prop :=
  (∀ w : Word, w.extractLsb' 12 4 = 0xF#4 → w.extractLsb' 0 8 = 0x21#8 → decode w = .trapOut) ∧
  ∀ s : State, ∃ t, exec .trapOut s = .next t ∧
    t.out = s.out ++ [(s.reg 0).extractLsb' 0 8] ∧ t.reg 7 = s.pc ∧ t.kbd = s.kbd ∧ t.pc = s.pc ∧ t.cond = s.cond ∧
    sameRegsBut [7] s t ∧ sameMemory s t ∧ sameRun s t

/-- 43_trap_reserved.md, PUTS (R123; the spec's decisions D7, D12, and log entry 9 for the hang): PUTS sends the low byte of
each word from the address in R0 up to the first zero word read, each word read as MemRead reads it; R7 is written, and
memory and keyboard are as those reads leave them (as before, if none is at 0xFE00). With no zero word to read the step never
completes. -/
def Obligations.TrapPutsWritesString : Prop :=
  (∀ w : Word, w.extractLsb' 12 4 = 0xF#4 → w.extractLsb' 0 8 = 0x22#8 → decode w = .trapPuts) ∧
  (∀ (s : State) (n : Nat), (∀ k < n, wordRead s (s.reg 0) k ≠ 0x0000) → wordRead s (s.reg 0) n = 0x0000 →
    ∃ t, exec .trapPuts s = .next t ∧
      t.out = s.out ++ (List.range n).map (fun k => (wordRead s (s.reg 0) k).extractLsb' 0 8) ∧
      t.reg 7 = s.pc ∧ t.pc = s.pc ∧ t.cond = s.cond ∧ sameRegsBut [7] s t ∧ sameRun s t ∧
      sameMemory (readsFrom s (s.reg 0) (n + 1)) t ∧ t.kbd = (readsFrom s (s.reg 0) (n + 1)).kbd ∧
      sameMemoryBut [0xFE00, 0xFE02] s t ∧
      ((∀ k ≤ n, s.reg 0 + BitVec.ofNat 16 k ≠ 0xFE00) → sameMemory s t ∧ t.kbd = s.kbd)) ∧
  ∀ s : State, (∀ n, wordRead s (s.reg 0) n ≠ 0x0000) → exec .trapPuts s = .fault .stringNeverEnds

/-- 43_trap_reserved.md, IN (R124; the spec's decisions D8, D9, D11, and log entry 8 for the held step): IN sends the prompt,
takes one character, echoes it, stores it in R0 zero-extended, sets the flags and writes R7; with no character to come the
step is held. The prompt is whatever IN_PROMPT is. -/
def Obligations.TrapInPromptsAndEchoes : Prop :=
  (∀ w : Word, w.extractLsb' 12 4 = 0xF#4 → w.extractLsb' 0 8 = 0x23#8 → decode w = .trapIn) ∧
  ∀ s : State,
    (∀ (c : Byte) (k : Keyboard), s.kbd.get = some (c, k) → ∃ t, exec .trapIn s = .next t ∧
      t.out = s.out ++ Config.inPrompt ++ [c] ∧ t.reg 0 = c.setWidth 16 ∧ t.reg 7 = s.pc ∧
      t.cond = (if c = 0x00 then .zero else .pos) ∧ t.kbd = k ∧ t.pc = s.pc ∧
      sameRegsBut [0, 7] s t ∧ sameMemory s t ∧ sameRun s t) ∧
    (s.kbd.get = none → exec .trapIn s = .fault .heldForKeyboard)

/-- 43_trap_reserved.md, PUTSP (R125; the spec's decisions D7, D12, and log entry 9 for the hang): PUTSP is PUTS with two
bytes a word, the low one and then the high one, which is left out when it is zero. A zero high byte does not end the string;
with no zero word to read the step never completes. -/
def Obligations.TrapPutspWritesPackedString : Prop :=
  (∀ w : Word, w.extractLsb' 12 4 = 0xF#4 → w.extractLsb' 0 8 = 0x24#8 → decode w = .trapPutsp) ∧
  (∀ (s : State) (n : Nat), (∀ k < n, wordRead s (s.reg 0) k ≠ 0x0000) → wordRead s (s.reg 0) n = 0x0000 →
    ∃ t, exec .trapPutsp s = .next t ∧
      t.out = s.out ++ (List.range n).flatMap (fun k =>
        (wordRead s (s.reg 0) k).extractLsb' 0 8 ::
          (if (wordRead s (s.reg 0) k).extractLsb' 8 8 = 0x00#8 then [] else [(wordRead s (s.reg 0) k).extractLsb' 8 8])) ∧
      t.reg 7 = s.pc ∧ t.pc = s.pc ∧ t.cond = s.cond ∧ sameRegsBut [7] s t ∧ sameRun s t ∧
      sameMemory (readsFrom s (s.reg 0) (n + 1)) t ∧ t.kbd = (readsFrom s (s.reg 0) (n + 1)).kbd ∧
      sameMemoryBut [0xFE00, 0xFE02] s t ∧
      ((∀ k ≤ n, s.reg 0 + BitVec.ofNat 16 k ≠ 0xFE00) → sameMemory s t ∧ t.kbd = s.kbd)) ∧
  ∀ s : State, (∀ n, wordRead s (s.reg 0) n ≠ 0x0000) → exec .trapPutsp s = .fault .stringNeverEnds

/-- The model's bound on the reads of PUTS and PUTSP (log entry 9) cuts no string short, whatever the keyboard goes on to
answer (log entry 4): they answer the fault that stands for the endless step of 70_reset_and_hazards.md section 4 exactly when
no read of theirs ever returns a zero word, however often the pointer goes round the address space. -/
def Obligations.StringRoutineHangsOnlyWithoutZeroWord : Prop :=
  ∀ s : State,
    (exec .trapPuts s = .fault .stringNeverEnds ↔ ∀ n, wordRead s (s.reg 0) n ≠ 0x0000) ∧
    (exec .trapPutsp s = .fault .stringNeverEnds ↔ ∀ n, wordRead s (s.reg 0) n ≠ 0x0000)

/-- 43_trap_reserved.md, HALT (R126; the spec's decisions D11, D19): HALT sends the notice, writes R7, and makes status
HALTED; PC stays the incremented PC. The notice is whatever HALT_NOTICE is. -/
def Obligations.TrapHaltEndsTheRun : Prop :=
  (∀ w : Word, w.extractLsb' 12 4 = 0xF#4 → w.extractLsb' 0 8 = 0x25#8 → decode w = .trapHalt) ∧
  ∀ s : State, ∃ t, exec .trapHalt s = .next t ∧
    t.status = .halted ∧ t.abort = s.abort ∧ t.out = s.out ++ Config.haltNotice ∧ t.reg 7 = s.pc ∧ t.pc = s.pc ∧
    t.cond = s.cond ∧ t.kbd = s.kbd ∧ sameRegsBut [7] s t ∧ sameMemory s t

/-- 43_trap_reserved.md (R127; the spec's decision D13): TRAP with a vector outside 0x20 to 0x25 writes R7 and then raises
InvalidInstruction; its own effect is that exception. For a vector of 0x20 to 0x25, with which no word decodes to this
instruction, the clause about exec is the model's own choice (log entry 17). -/
def Obligations.TrapUnrecognisedAborts : Prop :=
  (∀ w : Word, w.extractLsb' 12 4 = 0xF#4 →
    ((w.extractLsb' 0 8).toNat < 0x20 ∨ 0x25 < (w.extractLsb' 0 8).toNat) →
    decode w = .trapUnrecognised (w.extractLsb' 0 8)) ∧
  ∀ (v : Byte) (s : State), ∃ t, exec (.trapUnrecognised v) s = .next t ∧
    t.status = .aborted ∧ t.abort = some ⟨.trapVector v, 0xF, s.pc - 1⟩ ∧ t.reg 7 = s.pc ∧ t.pc = s.pc ∧
    t.cond = s.cond ∧ sameRegsBut [7] s t ∧ sameMemory s t ∧ sameDevices s t

/-- R128: RTI raises InvalidInstruction and does nothing else; its own effect is that exception. -/
def Obligations.RtiAborts : Prop :=
  (∀ w : Word, w.extractLsb' 12 4 = 0x8#4 → decode w = .rti) ∧
  ∀ s : State, ∃ t, exec .rti s = .next t ∧
    t.status = .aborted ∧ t.abort = some ⟨.rti, 0x8, s.pc - 1⟩ ∧ t.pc = s.pc ∧ t.cond = s.cond ∧
    sameRegsBut [] s t ∧ sameMemory s t ∧ sameDevices s t

/-- R129: RES raises InvalidInstruction and does nothing else; its own effect is that exception. -/
def Obligations.ResAborts : Prop :=
  (∀ w : Word, w.extractLsb' 12 4 = 0xD#4 → decode w = .res) ∧
  ∀ s : State, ∃ t, exec .res s = .next t ∧
    t.status = .aborted ∧ t.abort = some ⟨.res, 0xD, s.pc - 1⟩ ∧ t.pc = s.pc ∧ t.cond = s.cond ∧
    sameRegsBut [] s t ∧ sameMemory s t ∧ sameDevices s t

/-! ## The keyboard environment -/

/-- The three kinds of tail lose no environment (log entry 4): every endless sequence of answers, with no law at all
(10_state.md section 6, R29 (a)), is a script followed by no key for ever, or by the stretches of a `mixed` tail, or by those
of a `busy` tail, for some choice of the free answers `Config.keyAnswers env`. -/
def Obligations.EveryAnswerSequenceIsAKeyboards : Prop :=
  ∀ f : Nat → Option Byte, ∃ script : List (Option Byte),
    (∀ i, f i = script.getD i none) ∨
    ∃ shape ∈ [mixedStretch, busyStretch], ∃ answers : Nat → List (Option Byte), ∀ n : Nat,
      n ≤ (script ++ (List.range n).flatMap (fun m => shape (answers m))).length ∧
      ∀ i < (script ++ (List.range n).flatMap (fun m => shape (answers m))).length,
        (script ++ (List.range n).flatMap (fun m => shape (answers m)))[i]? = some (f i)
end

