-- ==== Sys2Proof/Laws/State.lean ====
section
/-! SUPPORT. One lemma per field per update of the state, true by rfl, so that no later proof unfolds a record update; and
reading a register after a write. -/

namespace Sys2Proof.Machine

/-! ## Registers -/

@[simp] theorem reg_setReg_same (s : State) (i : Reg) (v : Word) : (s.setReg i v).reg i = v := by
  simp [State.reg, State.setReg, Vector.get_eq_getElem]

theorem reg_setReg_ne (s : State) {i j : Reg} (v : Word) (h : j ≠ i) : (s.setReg i v).reg j = s.reg j := by
  have h' : i.val ≠ j.val := fun e => h (Fin.ext e.symm)
  simp [State.reg, State.setReg, Vector.get_eq_getElem, Vector.getElem_set_ne, h']

@[simp] theorem setReg_pc (s : State) (i : Reg) (v : Word) : (s.setReg i v).pc = s.pc := rfl
@[simp] theorem setReg_cond (s : State) (i : Reg) (v : Word) : (s.setReg i v).cond = s.cond := rfl
@[simp] theorem setReg_mem (s : State) (i : Reg) (v : Word) : (s.setReg i v).mem = s.mem := rfl
@[simp] theorem setReg_status (s : State) (i : Reg) (v : Word) : (s.setReg i v).status = s.status := rfl
@[simp] theorem setReg_abort (s : State) (i : Reg) (v : Word) : (s.setReg i v).abort = s.abort := rfl
@[simp] theorem setReg_kbd (s : State) (i : Reg) (v : Word) : (s.setReg i v).kbd = s.kbd := rfl
@[simp] theorem setReg_out (s : State) (i : Reg) (v : Word) : (s.setReg i v).out = s.out := rfl
@[simp] theorem setReg_memWord (s : State) (i : Reg) (v a : Word) : (s.setReg i v).memWord a = s.memWord a := rfl

/-! ## The program counter -/

@[simp] theorem setPc_pc (s : State) (t : Word) : (s.setPc t).pc = t := rfl
@[simp] theorem setPc_regs (s : State) (t : Word) : (s.setPc t).regs = s.regs := rfl
@[simp] theorem setPc_reg (s : State) (t : Word) (i : Reg) : (s.setPc t).reg i = s.reg i := rfl
@[simp] theorem setPc_cond (s : State) (t : Word) : (s.setPc t).cond = s.cond := rfl
@[simp] theorem setPc_mem (s : State) (t : Word) : (s.setPc t).mem = s.mem := rfl
@[simp] theorem setPc_status (s : State) (t : Word) : (s.setPc t).status = s.status := rfl
@[simp] theorem setPc_abort (s : State) (t : Word) : (s.setPc t).abort = s.abort := rfl
@[simp] theorem setPc_kbd (s : State) (t : Word) : (s.setPc t).kbd = s.kbd := rfl
@[simp] theorem setPc_out (s : State) (t : Word) : (s.setPc t).out = s.out := rfl
@[simp] theorem setPc_memWord (s : State) (t a : Word) : (s.setPc t).memWord a = s.memWord a := rfl

/-! ## The link register -/

@[simp] theorem link_reg_seven (s : State) : (link s).reg 7 = s.pc := reg_setReg_same s 7 s.pc

theorem link_reg_ne (s : State) {i : Reg} (h : i ≠ 7) : (link s).reg i = s.reg i := reg_setReg_ne s s.pc h

@[simp] theorem link_reg_zero (s : State) : (link s).reg 0 = s.reg 0 := link_reg_ne s (by decide)

@[simp] theorem link_pc (s : State) : (link s).pc = s.pc := rfl
@[simp] theorem link_cond (s : State) : (link s).cond = s.cond := rfl
@[simp] theorem link_mem (s : State) : (link s).mem = s.mem := rfl
@[simp] theorem link_status (s : State) : (link s).status = s.status := rfl
@[simp] theorem link_abort (s : State) : (link s).abort = s.abort := rfl
@[simp] theorem link_kbd (s : State) : (link s).kbd = s.kbd := rfl
@[simp] theorem link_out (s : State) : (link s).out = s.out := rfl
@[simp] theorem link_memWord (s : State) (a : Word) : (link s).memWord a = s.memWord a := rfl

/-! ## The flags -/

@[simp] theorem setcc_cond (s : State) (i : Reg) : (setcc s i).cond = condOf (s.reg i) := rfl
@[simp] theorem setcc_regs (s : State) (i : Reg) : (setcc s i).regs = s.regs := rfl
@[simp] theorem setcc_reg (s : State) (i j : Reg) : (setcc s i).reg j = s.reg j := rfl
@[simp] theorem setcc_pc (s : State) (i : Reg) : (setcc s i).pc = s.pc := rfl
@[simp] theorem setcc_mem (s : State) (i : Reg) : (setcc s i).mem = s.mem := rfl
@[simp] theorem setcc_status (s : State) (i : Reg) : (setcc s i).status = s.status := rfl
@[simp] theorem setcc_abort (s : State) (i : Reg) : (setcc s i).abort = s.abort := rfl
@[simp] theorem setcc_kbd (s : State) (i : Reg) : (setcc s i).kbd = s.kbd := rfl
@[simp] theorem setcc_out (s : State) (i : Reg) : (setcc s i).out = s.out := rfl
@[simp] theorem setcc_memWord (s : State) (i : Reg) (a : Word) : (setcc s i).memWord a = s.memWord a := rfl

@[simp] theorem defineReg_reg_same (s : State) (dr : Reg) (v : Word) : (defineReg s dr v).reg dr = v :=
  reg_setReg_same s dr v

theorem defineReg_reg_ne (s : State) {dr j : Reg} (v : Word) (h : j ≠ dr) : (defineReg s dr v).reg j = s.reg j :=
  reg_setReg_ne s v h

@[simp] theorem defineReg_cond (s : State) (dr : Reg) (v : Word) : (defineReg s dr v).cond = condOf v := by
  simp [defineReg]

@[simp] theorem defineReg_pc (s : State) (dr : Reg) (v : Word) : (defineReg s dr v).pc = s.pc := rfl
@[simp] theorem defineReg_mem (s : State) (dr : Reg) (v : Word) : (defineReg s dr v).mem = s.mem := rfl
@[simp] theorem defineReg_status (s : State) (dr : Reg) (v : Word) : (defineReg s dr v).status = s.status := rfl
@[simp] theorem defineReg_abort (s : State) (dr : Reg) (v : Word) : (defineReg s dr v).abort = s.abort := rfl
@[simp] theorem defineReg_kbd (s : State) (dr : Reg) (v : Word) : (defineReg s dr v).kbd = s.kbd := rfl
@[simp] theorem defineReg_out (s : State) (dr : Reg) (v : Word) : (defineReg s dr v).out = s.out := rfl
@[simp] theorem defineReg_memWord (s : State) (dr : Reg) (v a : Word) : (defineReg s dr v).memWord a = s.memWord a := rfl

/-! ## Memory and console -/

@[simp] theorem memWrite_mem (s : State) (a v : Word) : (memWrite s a v).mem = s.mem.write a.toNat v := rfl
@[simp] theorem memWrite_regs (s : State) (a v : Word) : (memWrite s a v).regs = s.regs := rfl
@[simp] theorem memWrite_reg (s : State) (a v : Word) (i : Reg) : (memWrite s a v).reg i = s.reg i := rfl
@[simp] theorem memWrite_pc (s : State) (a v : Word) : (memWrite s a v).pc = s.pc := rfl
@[simp] theorem memWrite_cond (s : State) (a v : Word) : (memWrite s a v).cond = s.cond := rfl
@[simp] theorem memWrite_status (s : State) (a v : Word) : (memWrite s a v).status = s.status := rfl
@[simp] theorem memWrite_abort (s : State) (a v : Word) : (memWrite s a v).abort = s.abort := rfl
@[simp] theorem memWrite_kbd (s : State) (a v : Word) : (memWrite s a v).kbd = s.kbd := rfl
@[simp] theorem memWrite_out (s : State) (a v : Word) : (memWrite s a v).out = s.out := rfl

@[simp] theorem conOut_out (s : State) (bs : List Byte) : (conOut s bs).out = s.out ++ bs := rfl
@[simp] theorem conOut_regs (s : State) (bs : List Byte) : (conOut s bs).regs = s.regs := rfl
@[simp] theorem conOut_reg (s : State) (bs : List Byte) (i : Reg) : (conOut s bs).reg i = s.reg i := rfl
@[simp] theorem conOut_pc (s : State) (bs : List Byte) : (conOut s bs).pc = s.pc := rfl
@[simp] theorem conOut_cond (s : State) (bs : List Byte) : (conOut s bs).cond = s.cond := rfl
@[simp] theorem conOut_mem (s : State) (bs : List Byte) : (conOut s bs).mem = s.mem := rfl
@[simp] theorem conOut_status (s : State) (bs : List Byte) : (conOut s bs).status = s.status := rfl
@[simp] theorem conOut_abort (s : State) (bs : List Byte) : (conOut s bs).abort = s.abort := rfl
@[simp] theorem conOut_kbd (s : State) (bs : List Byte) : (conOut s bs).kbd = s.kbd := rfl
@[simp] theorem conOut_memWord (s : State) (bs : List Byte) (a : Word) : (conOut s bs).memWord a = s.memWord a := rfl

/-! ## The exception -/

@[simp] theorem raiseInvalid_status (s : State) (c : AbortCause) (o : BitVec 4) (a : Word) :
    (raiseInvalid s c o a).status = .aborted := rfl
@[simp] theorem raiseInvalid_abort (s : State) (c : AbortCause) (o : BitVec 4) (a : Word) :
    (raiseInvalid s c o a).abort = some { cause := c, opcode := o, addr := a } := rfl
@[simp] theorem raiseInvalid_reg (s : State) (c : AbortCause) (o : BitVec 4) (a : Word) (i : Reg) :
    (raiseInvalid s c o a).reg i = s.reg i := rfl
@[simp] theorem raiseInvalid_pc (s : State) (c : AbortCause) (o : BitVec 4) (a : Word) :
    (raiseInvalid s c o a).pc = s.pc := rfl
@[simp] theorem raiseInvalid_cond (s : State) (c : AbortCause) (o : BitVec 4) (a : Word) :
    (raiseInvalid s c o a).cond = s.cond := rfl
@[simp] theorem raiseInvalid_mem (s : State) (c : AbortCause) (o : BitVec 4) (a : Word) :
    (raiseInvalid s c o a).mem = s.mem := rfl
@[simp] theorem raiseInvalid_kbd (s : State) (c : AbortCause) (o : BitVec 4) (a : Word) :
    (raiseInvalid s c o a).kbd = s.kbd := rfl
@[simp] theorem raiseInvalid_out (s : State) (c : AbortCause) (o : BitVec 4) (a : Word) :
    (raiseInvalid s c o a).out = s.out := rfl
@[simp] theorem raiseInvalid_memWord (s : State) (c : AbortCause) (o : BitVec 4) (a b : Word) :
    (raiseInvalid s c o a).memWord b = s.memWord b := rfl

@[simp] theorem haltRun_status (s : State) : (haltRun s).status = .halted := rfl
@[simp] theorem haltRun_reg (s : State) (i : Reg) : (haltRun s).reg i = s.reg i := rfl
@[simp] theorem haltRun_pc (s : State) : (haltRun s).pc = s.pc := rfl
@[simp] theorem haltRun_cond (s : State) : (haltRun s).cond = s.cond := rfl
@[simp] theorem haltRun_mem (s : State) : (haltRun s).mem = s.mem := rfl
@[simp] theorem haltRun_abort (s : State) : (haltRun s).abort = s.abort := rfl
@[simp] theorem haltRun_kbd (s : State) : (haltRun s).kbd = s.kbd := rfl
@[simp] theorem haltRun_out (s : State) : (haltRun s).out = s.out := rfl
@[simp] theorem haltRun_memWord (s : State) (a : Word) : (haltRun s).memWord a = s.memWord a := rfl

/-- Two states are equal when their fields are; the registers read one by one. -/
theorem State.ext_reg {s t : State} (hr : ∀ i, s.reg i = t.reg i) (hpc : s.pc = t.pc) (hc : s.cond = t.cond)
    (hm : s.mem = t.mem) (hs : s.status = t.status) (ha : s.abort = t.abort) (hk : s.kbd = t.kbd)
    (ho : s.out = t.out) : s = t := by
  have hregs : s.regs = t.regs := by
    apply Vector.ext
    intro i hi
    exact hr ⟨i, hi⟩
  cases s
  cases t
  simp_all

end Sys2Proof.Machine
end

