-- ==== Sys2Proof/Laws/Memory.lean ====
section
/-! SUPPORT. Memory: a read after a write, and every operation keeps the canonical form. -/

namespace Sys2Proof.Machine

/-! ## Read after write, for every memory -/

theorem Memory.read_erase_same (m : Memory) (a : Nat) : (m.erase a).read a = Memory.unlisted := by
  induction m with
  | nil => rfl
  | cons c rest ih =>
    obtain ⟨b, w⟩ := c
    by_cases h : b = a
    · simpa [Memory.erase, h] using ih
    · simpa [Memory.erase, Memory.read, h] using ih

theorem Memory.read_erase_ne (m : Memory) {a b : Nat} (h : b ≠ a) : (m.erase a).read b = m.read b := by
  induction m with
  | nil => rfl
  | cons c rest ih =>
    obtain ⟨d, w⟩ := c
    simp only [Memory.erase] at ih
    by_cases hd : d = a
    · have : d ≠ b := fun e => h (e.symm.trans hd)
      simpa [Memory.erase, Memory.read, hd, this, h.symm] using ih
    · by_cases hb : d = b <;> simp [Memory.erase, Memory.read, hd, hb, ih, h]

theorem Memory.read_insert (m : Memory) (a b : Nat) (v : Word) (h : ∀ c ∈ m, c.1 ≠ a) :
    (m.insert a v).read b = if b = a then v else m.read b := by
  induction m with
  | nil => simp [Memory.insert, Memory.read, eq_comm]
  | cons c rest ih =>
    obtain ⟨d, w⟩ := c
    have hd : d ≠ a := h (d, w) (by simp)
    have ih := ih (fun c hc => h c (by simp [hc]))
    by_cases hlt : a < d
    · simp [Memory.insert, Memory.read, hlt, eq_comm]
    · by_cases hb : d = b
      · subst hb
        simp [Memory.insert, Memory.read, hlt, hd]
      · simp [Memory.insert, Memory.read, hlt, hb, ih]

theorem Memory.ne_of_mem_erase {m : Memory} {a : Nat} {c : WordCell} (h : c ∈ m.erase a) : c.1 ≠ a := by
  simp [Memory.erase] at h
  exact h.2

/-- One lemma for the write: it gives the value written at its address and leaves every other address alone. -/
theorem Memory.read_write (m : Memory) (a b : Nat) (v : Word) :
    (m.write a v).read b = if b = a then v else m.read b := by
  unfold Memory.write
  by_cases hv : v = Memory.unlisted
  · by_cases hb : b = a
    · simp [hv, hb, Memory.read_erase_same]
    · simp [hv, hb, Memory.read_erase_ne m hb]
  · rw [if_neg hv, Memory.read_insert _ _ _ _ (fun c hc => Memory.ne_of_mem_erase hc)]
    by_cases hb : b = a
    · simp [hb]
    · simp [hb, Memory.read_erase_ne m hb]

/-- `mem[b]` after `MemWrite(a, 16, v)` (R42). -/
theorem memWord_memWrite (s : State) (a b v : Word) :
    (memWrite s a v).memWord b = if b = a then v else s.memWord b := by
  simp [State.memWord, Memory.read_write, BitVec.toNat_inj]

@[simp] theorem memWord_memWrite_same (s : State) (a v : Word) : (memWrite s a v).memWord a = v := by
  simp [memWord_memWrite]

theorem memWord_memWrite_ne (s : State) {a b : Word} (v : Word) (h : b ≠ a) :
    (memWrite s a v).memWord b = s.memWord b := by
  simp [memWord_memWrite, h]

/-! ## The canonical form -/

theorem Memory.wf_nil : Memory.wf [] := by simp [Memory.wf]

theorem Memory.wf_erase {m : Memory} (h : m.wf) (a : Nat) : (m.erase a).wf :=
  ⟨h.1.filter _, fun c hc => h.2 c (List.mem_of_mem_filter hc)⟩

theorem Memory.mem_insert {m : Memory} {a : Nat} {v : Word} {c : WordCell} :
    c ∈ m.insert a v ↔ c = (a, v) ∨ c ∈ m := by
  induction m with
  | nil => simp [Memory.insert]
  | cons d rest ih =>
    obtain ⟨b, w⟩ := d
    by_cases hlt : a < b
    · simp [Memory.insert, hlt]
    · simp [Memory.insert, hlt, ih]
      tauto

theorem Memory.wf_insert {m : Memory} (h : m.wf) {a : Nat} {v : Word} (ha : a < 65536)
    (hv : v ≠ Memory.unlisted) (hne : ∀ c ∈ m, c.1 ≠ a) : (m.insert a v).wf := by
  refine ⟨?_, fun c hc => ?_⟩
  · have hs := h.1
    clear h
    induction m with
    | nil => simp [Memory.insert]
    | cons d rest ih =>
      obtain ⟨b, w⟩ := d
      rw [List.pairwise_cons] at hs
      have hb : b ≠ a := hne (b, w) (by simp)
      by_cases hlt : a < b
      · rw [Memory.insert, if_pos hlt, List.pairwise_cons, List.pairwise_cons]
        refine ⟨fun c hc => ?_, hs⟩
        rcases List.mem_cons.mp hc with rfl | hc
        · exact hlt
        · exact Nat.lt_trans hlt (hs.1 c hc)
      · rw [Memory.insert, if_neg hlt, List.pairwise_cons]
        refine ⟨fun c hc => ?_, ih (fun c hc => hne c (by simp [hc])) hs.2⟩
        rcases Memory.mem_insert.mp hc with rfl | hc
        · exact Nat.lt_of_le_of_ne (Nat.le_of_not_lt hlt) hb
        · exact hs.1 c hc
  · rcases Memory.mem_insert.mp hc with rfl | hc
    · exact ⟨ha, hv⟩
    · exact h.2 c hc

theorem Memory.wf_write {m : Memory} (h : m.wf) {a : Nat} (ha : a < 65536) (v : Word) : (m.write a v).wf := by
  unfold Memory.write
  by_cases hv : v = Memory.unlisted
  · simpa [hv] using Memory.wf_erase h a
  · simpa [hv] using Memory.wf_insert (Memory.wf_erase h a) ha hv (fun c hc => Memory.ne_of_mem_erase hc)

/-- `MemWrite` keeps the canonical form. -/
theorem memWrite_wf {s : State} (h : s.mem.wf) (a v : Word) : (memWrite s a v).mem.wf :=
  Memory.wf_write h a.isLt v

theorem Memory.wf_loadWords {m : Memory} (h : m.wf) (a : Nat) (ws : List Word) : (m.loadWords a ws).wf := by
  induction ws generalizing m a with
  | nil => exact h
  | cons w rest ih =>
    rw [Memory.loadWords]
    split
    · rename_i ha
      exact ih (Memory.wf_write h ha w) (a + 1)
    · exact h

/-- Laying down images keeps the canonical form. -/
theorem Memory.wf_loadImages {m : Memory} (h : m.wf) (images : List Image) : (m.loadImages images).wf := by
  induction images generalizing m with
  | nil => exact h
  | cons image rest ih => exact ih (Memory.wf_loadWords h _ _)

theorem reset_mem_wf : State.reset.mem.wf := Memory.wf_nil

end Sys2Proof.Machine
end

