-- ==== Sys2Proof/Laws/Ops.lean ====
section
/-! SUPPORT. What the shared operations can do, one lemma each: the intercepting read, the keyboard, the string routine. -/

namespace Sys2Proof.Machine

/-! ## The intercepting read -/

@[simp] theorem pollKbsr_regs (s : State) : (pollKbsr s).regs = s.regs := by unfold pollKbsr; split <;> rfl
@[simp] theorem pollKbsr_pc (s : State) : (pollKbsr s).pc = s.pc := by unfold pollKbsr; split <;> rfl
@[simp] theorem pollKbsr_cond (s : State) : (pollKbsr s).cond = s.cond := by unfold pollKbsr; split <;> rfl
@[simp] theorem pollKbsr_status (s : State) : (pollKbsr s).status = s.status := by unfold pollKbsr; split <;> rfl
@[simp] theorem pollKbsr_abort (s : State) : (pollKbsr s).abort = s.abort := by unfold pollKbsr; split <;> rfl
@[simp] theorem pollKbsr_out (s : State) : (pollKbsr s).out = s.out := by unfold pollKbsr; split <;> rfl

theorem pollKbsr_kbd (s : State) : (pollKbsr s).kbd = s.kbd.poll.2 := by
  unfold pollKbsr
  split <;> simp_all

theorem pollKbsr_memWord_other (s : State) {a : Word} (h₁ : a ≠ kbsrAddr) (h₂ : a ≠ kbdrAddr) :
    (pollKbsr s).memWord a = s.memWord a := by
  unfold pollKbsr
  split
  · rw [memWord_memWrite_ne _ _ h₂, memWord_memWrite_ne _ _ h₁]
    rfl
  · rw [memWord_memWrite_ne _ _ h₁]
    rfl

theorem pollKbsr_memWord_kbsr (s : State) :
    (pollKbsr s).memWord kbsrAddr = if s.kbd.poll.1.isSome then kbsrReady else 0x0000 := by
  unfold pollKbsr
  split
  · rename_i h
    rw [memWord_memWrite_ne _ _ (by decide), memWord_memWrite_same]
    simp [h]
  · rename_i h
    simp [h]

theorem pollKbsr_memWord_kbdr (s : State) :
    (pollKbsr s).memWord kbdrAddr = (s.kbd.poll.1.map zext16).getD (s.memWord kbdrAddr) := by
  unfold pollKbsr
  split
  · rename_i h
    simp [h]
  · rename_i h
    rw [memWord_memWrite_ne _ _ (by decide)]
    simp [h, State.memWord]

theorem pollKbsr_wf {s : State} (h : s.mem.wf) : (pollKbsr s).mem.wf := by
  unfold pollKbsr
  split
  · exact memWrite_wf (memWrite_wf (s := { s with kbd := _ }) h _ _) _ _
  · exact memWrite_wf (s := { s with kbd := _ }) h _ _

@[simp] theorem intercept_of_ne (s : State) {a : Word} (h : a ≠ kbsrAddr) : intercept s a = s := if_neg h
@[simp] theorem intercept_kbsr (s : State) : intercept s kbsrAddr = pollKbsr s := if_pos rfl

@[simp] theorem intercept_regs (s : State) (a : Word) : (intercept s a).regs = s.regs := by
  unfold intercept; split <;> simp
@[simp] theorem intercept_reg (s : State) (a : Word) (i : Reg) : (intercept s a).reg i = s.reg i := by
  simp [State.reg]
@[simp] theorem intercept_pc (s : State) (a : Word) : (intercept s a).pc = s.pc := by
  unfold intercept; split <;> simp
@[simp] theorem intercept_cond (s : State) (a : Word) : (intercept s a).cond = s.cond := by
  unfold intercept; split <;> simp
@[simp] theorem intercept_status (s : State) (a : Word) : (intercept s a).status = s.status := by
  unfold intercept; split <;> simp
@[simp] theorem intercept_abort (s : State) (a : Word) : (intercept s a).abort = s.abort := by
  unfold intercept; split <;> simp
@[simp] theorem intercept_out (s : State) (a : Word) : (intercept s a).out = s.out := by
  unfold intercept; split <;> simp

theorem intercept_memWord_other (s : State) (a : Word) {b : Word} (h₁ : b ≠ kbsrAddr) (h₂ : b ≠ kbdrAddr) :
    (intercept s a).memWord b = s.memWord b := by
  unfold intercept
  split
  · exact pollKbsr_memWord_other s h₁ h₂
  · rfl

theorem intercept_wf {s : State} (h : s.mem.wf) (a : Word) : (intercept s a).mem.wf := by
  unfold intercept
  split
  · exact pollKbsr_wf h
  · exact h

/-- A `MemRead` returns the word stored after its interception (R43). -/
theorem memRead_eq (s : State) (a : Word) : memRead s a = ((intercept s a).memWord a, intercept s a) := rfl

@[simp] theorem memRead_fst (s : State) (a : Word) : (memRead s a).1 = (intercept s a).memWord a := rfl
@[simp] theorem memRead_snd (s : State) (a : Word) : (memRead s a).2 = intercept s a := rfl

/-- A read of any address but 0xFE00 is plain (R43). -/
theorem memRead_plain (s : State) {a : Word} (h : a ≠ kbsrAddr) : memRead s a = (s.memWord a, s) := by
  simp [memRead_eq, h]

/-! ## The fetch -/

/-- The fetch (R160): the word at `pc`, and the state of that read with `pc` moved on. -/
theorem fetch_eq (s : State) : fetch s = ((memRead s s.pc).1, (memRead s s.pc).2.setPc (s.pc + 1)) := by
  simp [fetch]

/-! ## The keyboard -/

/-- A poll takes the first answer of the script (R15). -/
theorem Keyboard.poll_cons (a : Option Byte) (later : List (Option Byte)) (tail : KeyTail) :
    ({ script := a :: later, tail := tail } : Keyboard).poll = (a, { script := later, tail := tail }) := rfl

theorem Keyboard.poll_silent :
    ({ script := [], tail := .silent } : Keyboard).poll = (none, { script := [], tail := .silent }) := rfl

theorem mixedStretch_key (l : List (Option Byte)) : ∃ c, some c ∈ mixedStretch l := by
  unfold mixedStretch
  split
  · rename_i h
    simp only [Bool.and_eq_true, List.any_eq_true, Option.isSome_iff_exists] at h
    obtain ⟨⟨a, ha, c, rfl⟩, -⟩ := h
    exact ⟨c, ha⟩
  · exact ⟨0x00, by simp⟩

theorem mixedStretch_ends (l : List (Option Byte)) : ∃ a ∈ mixedStretch l, endsString a = true := by
  unfold mixedStretch
  split
  · rename_i h
    simp only [Bool.and_eq_true, List.any_eq_true] at h
    exact h.2
  · exact ⟨some 0x00, by simp, by decide⟩

theorem busyStretch_goes_on {l : List (Option Byte)} {a : Option Byte} (h : a ∈ busyStretch l) : endsString a = false := by
  unfold busyStretch at h
  split at h
  · simp only [List.mem_singleton] at h
    subst h
    decide
  · rename_i hl
    rw [← hl, List.mem_filter] at h
    simpa using h.2

theorem busyStretch_ne_nil (l : List (Option Byte)) : busyStretch l ≠ [] := by
  unfold busyStretch
  split <;> simp

/-- Only a silent tail has no stretch; any other gives a character in its next stretch. -/
theorem KeyTail.stretch_key {tail : KeyTail} (h : tail ≠ .silent) : ∃ c, some c ∈ tail.stretch := by
  cases tail with
  | silent => exact absurd rfl h
  | mixed env n => exact mixedStretch_key _
  | busy env n =>
    obtain ⟨a, later, hl⟩ := List.exists_cons_of_ne_nil (busyStretch_ne_nil (Config.keyAnswers env n))
    have ha : a ∈ busyStretch (Config.keyAnswers env n) := by rw [hl]; simp
    cases a with
    | none => exact absurd (busyStretch_goes_on ha) (by decide)
    | some c => exact ⟨c, ha⟩

/-- A poll at the end of the script takes the first answer of the next stretch. -/
theorem Keyboard.poll_stretch {tail : KeyTail} (h : tail ≠ .silent) :
    ({ script := [], tail := tail } : Keyboard).poll = ({ script := tail.stretch, tail := tail.next } : Keyboard).poll := by
  obtain ⟨c, hc⟩ := KeyTail.stretch_key h
  cases hl : tail.stretch with
  | nil => simp [hl] at hc
  | cons a later => simp [Keyboard.poll, hl]

/-- While answers that go on lie ahead, a poll finds a character other than 0x00, and they still lie ahead. -/
theorem Keyboard.poll_busy (l : List (Option Byte)) (env n : Nat) (h : ∀ a ∈ l, endsString a = false) :
    ∃ (c : Byte) (later : List (Option Byte)) (m : Nat), c ≠ 0x00 ∧ (∀ a ∈ later, endsString a = false) ∧
      ({ script := l, tail := .busy env n } : Keyboard).poll = (some c, { script := later, tail := .busy env m }) := by
  have key : ∀ (a : Option Byte) (later : List (Option Byte)) (m : Nat), (∀ b ∈ a :: later, endsString b = false) →
      ∃ (c : Byte) (later' : List (Option Byte)) (m' : Nat), c ≠ 0x00 ∧ (∀ b ∈ later', endsString b = false) ∧
        ({ script := a :: later, tail := .busy env m } : Keyboard).poll =
          (some c, { script := later', tail := .busy env m' }) := by
    intro a later m hb
    have ha := hb a (by simp)
    cases a with
    | none => exact absurd ha (by decide)
    | some c =>
      refine ⟨c, later, m, fun hc => ?_, fun b hm => hb b (by simp [hm]), rfl⟩
      subst hc
      exact absurd ha (by decide)
  cases l with
  | cons a later => exact key a later n h
  | nil =>
    rw [Keyboard.poll_stretch (by simp)]
    have hb : ∀ a ∈ busyStretch (Config.keyAnswers env n), endsString a = false := fun a ha => busyStretch_goes_on ha
    obtain ⟨a, later, hl⟩ := List.exists_cons_of_ne_nil (busyStretch_ne_nil (Config.keyAnswers env n))
    rw [hl] at hb
    simpa only [KeyTail.stretch, KeyTail.next, hl] using key a later (n + 1) hb

theorem firstKey_eq_none {l : List (Option Byte)} : firstKey l = none ↔ ∀ a ∈ l, a = none := by
  induction l with
  | nil => simp [firstKey]
  | cons a later ih => cases a <;> simp [firstKey, ih]

/-- GETC and IN are held exactly when the script has no character and the tail is silent (R151). -/
theorem Keyboard.get_eq_none {k : Keyboard} : k.get = none ↔ k.tail = .silent ∧ ∀ a ∈ k.script, a = none := by
  have ht : firstKey k.tail.stretch = none ↔ k.tail = .silent := by
    constructor
    · intro h
      by_contra hne
      obtain ⟨c, hc⟩ := KeyTail.stretch_key hne
      exact absurd (firstKey_eq_none.mp h _ hc) (by simp)
    · intro h
      rw [h]
      rfl
  rw [← ht, ← firstKey_eq_none]
  unfold Keyboard.get
  split <;> simp_all

/-- What the routines that read a key can answer (R121, R124, R151). -/
theorem withKey_cases (s : State) (f : Byte → State → State) :
    (∃ c k, s.kbd.get = some (c, k) ∧ withKey s f = .next (f c { s with kbd := k })) ∨
      (s.kbd.get = none ∧ withKey s f = .fault .heldForKeyboard) := by
  unfold withKey
  split
  · rename_i c k h
    exact .inl ⟨c, k, h, rfl⟩
  · rename_i h
    exact .inr ⟨h, rfl⟩

/-! ## The string routine -/

/-- One turn of the loop (R123, R125). -/
theorem printString_succ (bytesOf : Word → List Byte) (fuel : Nat) (a : Word) (s : State) :
    printString bytesOf (fuel + 1) a s =
      if (intercept s a).memWord a = 0x0000 then some (intercept s a)
      else printString bytesOf fuel (a + 1) (conOut (intercept s a) (bytesOf ((intercept s a).memWord a))) := rfl

/-- What the loop of PUTS and PUTSP keeps (R123, R125): whenever it ends, registers, PC, COND, status and abort record are as
before, every word but KBSR and KBDR reads as before, the output has grown at its end, and the memory form is kept. -/
theorem printString_keeps {bytesOf : Word → List Byte} {fuel : Nat} {a : Word} {s t : State}
    (h : printString bytesOf fuel a s = some t) :
    t.regs = s.regs ∧ t.pc = s.pc ∧ t.cond = s.cond ∧ t.status = s.status ∧ t.abort = s.abort ∧
      (∀ b, b ≠ kbsrAddr → b ≠ kbdrAddr → t.memWord b = s.memWord b) ∧ (∃ bs, t.out = s.out ++ bs) ∧
      (s.mem.wf → t.mem.wf) := by
  induction fuel generalizing a s with
  | zero => simp [printString] at h
  | succ fuel ih =>
    rw [printString_succ] at h
    split at h
    · cases h
      exact ⟨by simp, by simp, by simp, by simp, by simp, fun b h₁ h₂ => intercept_memWord_other s a h₁ h₂,
        ⟨[], by simp⟩, fun hw => intercept_wf hw a⟩
    · obtain ⟨hr, hpc, hc, hs, ha, hm, ⟨bs, ho⟩, hw⟩ := ih h
      refine ⟨by simpa using hr, by simpa using hpc, by simpa using hc, by simpa using hs, by simpa using ha,
        fun b h₁ h₂ => ?_, ⟨_, by rw [ho, conOut_out, intercept_out, List.append_assoc]⟩, fun h => ?_⟩
      · rw [hm b h₁ h₂, conOut_memWord, intercept_memWord_other s a h₁ h₂]
      · exact hw (intercept_wf h a)

/-- What the string routine can answer (R123, R125, R169). -/
theorem putString_cases (bytesOf : Word → List Byte) (s : State) :
    (∃ t, printString bytesOf (stringFuel s.kbd) (s.reg 0) s = some t ∧ putString bytesOf s = .next t) ∨
      (printString bytesOf (stringFuel s.kbd) (s.reg 0) s = none ∧ putString bytesOf s = .fault .stringNeverEnds) := by
  unfold putString
  split
  · rename_i t h
    exact .inl ⟨t, h, rfl⟩
  · rename_i h
    exact .inr ⟨h, rfl⟩

end Sys2Proof.Machine
end

