-- ==== Sys2Proof/Laws/PerInstr.lean ====
section
/-! SUPPORT. Facts about every instruction as syntax, one lemma per constructor: the encoder writes the instruction's own
opcode numeral into the top four bits (spec/30_encoding.md R62, R65). -/

namespace Sys2Proof.Laws.EncodesOpcode

/-- The opcode of the row an instruction belongs to (R65). -/
def opcodeOf : Instr → Opcode
  | .addReg _ _ _ => .add
  | .addImm _ _ _ => .add
  | .andReg _ _ _ => .and
  | .andImm _ _ _ => .and
  | .not _ _ => .not
  | .br _ _ _ _ => .br
  | .jmp _ => .jmp
  | .jsr _ => .jsr
  | .jsrr _ => .jsr
  | .ld _ _ => .ld
  | .ldi _ _ => .ldi
  | .ldr _ _ _ => .ldr
  | .lea _ _ => .lea
  | .st _ _ => .st
  | .sti _ _ => .sti
  | .str _ _ _ => .str
  | .trapGetc => .trap
  | .trapOut => .trap
  | .trapPuts => .trap
  | .trapIn => .trap
  | .trapPutsp => .trap
  | .trapHalt => .trap
  | .trapUnrecognised _ => .trap
  | .rti => .rti
  | .res => .res

/-- The top four bits of the encoding are the opcode's numeral. -/
def Statement (i : Instr) : Prop := fieldOpcode (encode i) = (opcodeOf i).numeral

/-- Four bits read one by one. -/
theorem fieldOpcode_eq {w : Word} {n : BitVec 4} (h₀ : w.getLsbD 12 = n.getLsbD 0) (h₁ : w.getLsbD 13 = n.getLsbD 1)
    (h₂ : w.getLsbD 14 = n.getLsbD 2) (h₃ : w.getLsbD 15 = n.getLsbD 3) : fieldOpcode w = n := by
  apply BitVec.eq_of_getLsbD_eq
  intro k hk
  rw [fieldOpcode, BitVec.getLsbD_extractLsb']
  interval_cases k <;> simp_all

theorem addReg (dr sr1 sr2 : Reg) : Statement (.addReg dr sr1 sr2) := by
  apply fieldOpcode_eq <;> simp only [encode, encodeRrr, BitVec.getLsbD_append] <;> simp [opcodeOf, Opcode.numeral]

theorem addImm (dr sr1 : Reg) (imm5 : BitVec 5) : Statement (.addImm dr sr1 imm5) := by
  apply fieldOpcode_eq <;> simp only [encode, encodeRri, BitVec.getLsbD_append] <;> simp [opcodeOf, Opcode.numeral]

theorem andReg (dr sr1 sr2 : Reg) : Statement (.andReg dr sr1 sr2) := by
  apply fieldOpcode_eq <;> simp only [encode, encodeRrr, BitVec.getLsbD_append] <;> simp [opcodeOf, Opcode.numeral]

theorem andImm (dr sr1 : Reg) (imm5 : BitVec 5) : Statement (.andImm dr sr1 imm5) := by
  apply fieldOpcode_eq <;> simp only [encode, encodeRri, BitVec.getLsbD_append] <;> simp [opcodeOf, Opcode.numeral]

theorem not (dr sr : Reg) : Statement (.not dr sr) := by
  apply fieldOpcode_eq <;> simp only [encode, BitVec.getLsbD_append] <;> simp [opcodeOf, Opcode.numeral]

theorem br (n z p : Bool) (off9 : BitVec 9) : Statement (.br n z p off9) := by
  apply fieldOpcode_eq <;> simp only [encode, BitVec.getLsbD_append] <;> simp [opcodeOf, Opcode.numeral]

theorem jmp (base : Reg) : Statement (.jmp base) := by
  apply fieldOpcode_eq <;> simp only [encode, BitVec.getLsbD_append] <;> simp [opcodeOf, Opcode.numeral]

theorem jsr (off11 : BitVec 11) : Statement (.jsr off11) := by
  apply fieldOpcode_eq <;> simp only [encode, BitVec.getLsbD_append] <;> simp [opcodeOf, Opcode.numeral]

theorem jsrr (base : Reg) : Statement (.jsrr base) := by
  apply fieldOpcode_eq <;> simp only [encode, BitVec.getLsbD_append] <;> simp [opcodeOf, Opcode.numeral]

theorem ld (dr : Reg) (off9 : BitVec 9) : Statement (.ld dr off9) := by
  apply fieldOpcode_eq <;> simp only [encode, encodePcrel, BitVec.getLsbD_append] <;> simp [opcodeOf, Opcode.numeral]

theorem ldi (dr : Reg) (off9 : BitVec 9) : Statement (.ldi dr off9) := by
  apply fieldOpcode_eq <;> simp only [encode, encodePcrel, BitVec.getLsbD_append] <;> simp [opcodeOf, Opcode.numeral]

theorem ldr (dr base : Reg) (off6 : BitVec 6) : Statement (.ldr dr base off6) := by
  apply fieldOpcode_eq <;> simp only [encode, encodeBaseoff, BitVec.getLsbD_append] <;> simp [opcodeOf, Opcode.numeral]

theorem lea (dr : Reg) (off9 : BitVec 9) : Statement (.lea dr off9) := by
  apply fieldOpcode_eq <;> simp only [encode, encodePcrel, BitVec.getLsbD_append] <;> simp [opcodeOf, Opcode.numeral]

theorem st (sr : Reg) (off9 : BitVec 9) : Statement (.st sr off9) := by
  apply fieldOpcode_eq <;> simp only [encode, encodePcrel, BitVec.getLsbD_append] <;> simp [opcodeOf, Opcode.numeral]

theorem sti (sr : Reg) (off9 : BitVec 9) : Statement (.sti sr off9) := by
  apply fieldOpcode_eq <;> simp only [encode, encodePcrel, BitVec.getLsbD_append] <;> simp [opcodeOf, Opcode.numeral]

theorem str (sr base : Reg) (off6 : BitVec 6) : Statement (.str sr base off6) := by
  apply fieldOpcode_eq <;> simp only [encode, encodeBaseoff, BitVec.getLsbD_append] <;> simp [opcodeOf, Opcode.numeral]

theorem trapGetc : Statement .trapGetc := by
  unfold Statement; decide

theorem trapOut : Statement .trapOut := by
  unfold Statement; decide

theorem trapPuts : Statement .trapPuts := by
  unfold Statement; decide

theorem trapIn : Statement .trapIn := by
  unfold Statement; decide

theorem trapPutsp : Statement .trapPutsp := by
  unfold Statement; decide

theorem trapHalt : Statement .trapHalt := by
  unfold Statement; decide

theorem trapUnrecognised (vector : Byte) : Statement (.trapUnrecognised vector) := by
  apply fieldOpcode_eq <;> simp only [encode, encodeTrap, BitVec.getLsbD_append] <;> simp [opcodeOf, Opcode.numeral]

theorem rti : Statement .rti := by
  unfold Statement; decide

theorem res : Statement .res := by
  unfold Statement; decide

end Sys2Proof.Laws.EncodesOpcode
end

