-- ==== Sys2Proof/Laws/Step.lean ====
section
/-! SUPPORT. The step: when there is one, and what it runs. -/

namespace Sys2Proof.Machine

theorem step_running {s : State} (h : s.status = .running) : step s = exec (decode (fetch s).1) (fetch s).2 := by
  simp [step, h]

theorem step_halted {s : State} (h : s.status = .halted) : step s = .fault .runHalted := by
  simp [step, h]

theorem step_aborted {s : State} (h : s.status = .aborted) : step s = .fault .runAborted := by
  simp [step, h]

/-- A step that answers a next state was taken in RUNNING, and ran the decoded instruction (R160). -/
theorem step_next {s t : State} (h : step s = .next t) :
    s.status = .running ∧ exec (decode (fetch s).1) (fetch s).2 = .next t := by
  cases hs : s.status with
  | running => exact ⟨rfl, by rw [← step_running hs, h]⟩
  | halted => simp [step_halted hs] at h
  | aborted => simp [step_aborted hs] at h

end Sys2Proof.Machine
end

