-- ==== Sys2Proof/Tests/Slice0.lean ====
section
/-! SUPPORT. The tests. Expected results come from spec/95_test_vectors.md (the vector's id stands at each test) or from the
rule named there, never from the model. Then, for every statement with hypotheses, a witness that meets them together. -/

namespace Sys2Proof.Tests

open Sys2Proof Sys2Proof.Machine

/-! ## Helpers: small states -/

/-- DEFAULT START of 95_test_vectors.md section 0: the word under test at 0x3000, everything else as after reset. -/
def start (w : Word) : State := State.reset.withFetchWord 16 w.toNat

/-- The same at another address. -/
def startAt (pc w : Word) : State := (State.reset.setPc pc).withFetchWord 16 w.toNat

/-- Words laid into memory. -/
def withWords (s : State) (l : List (Word × Word)) : State := l.foldl (fun s c => memWrite s c.1 c.2) s

/-- A keyboard that gives these answers and then nothing. -/
def withAnswers (s : State) (l : List (Option Byte)) : State := { s with kbd := ⟨l, .silent⟩ }

/-- COND set. -/
def withCond (s : State) (c : Cond) : State := { s with cond := c }

/-- The next state, if there is one. -/
def after (o : Host.Outcome State Fault Refusal) : Option State :=
  match o with
  | .next t => some t
  | .fault _ => none
  | .refused _ => none

/-- The fault, if there is one. -/
def faultOf (o : Host.Outcome State Fault Refusal) : Option Fault :=
  match o with
  | .next _ => none
  | .fault f => some f
  | .refused _ => none

/-! ## WellFormed -/

theorem test_wellFormed_refuses_named_vectors :
    Instr.wellFormed (.trapUnrecognised 0x20) = false ∧ Instr.wellFormed (.trapUnrecognised 0x25) = false ∧
    Instr.wellFormed (.trapUnrecognised 0x1F) = true ∧ Instr.wellFormed (.trapUnrecognised 0x26) = true := by decide

/-! ## Decoding: words written out bit by bit from 30_encoding.md R63 and R65 (most of them in section 2.2 of file 95) -/

theorem test_decode_operate :
    decode 0b0001_011_001_0_00_010 = .addReg 3 1 2 ∧ decode 0b0001_011_001_0_11_010 = .addReg 3 1 2 ∧
    decode 0b0001_010_001_1_11101 = .addImm 2 1 0b11101 ∧ decode 0b0101_011_001_0_00_010 = .andReg 3 1 2 ∧
    decode 0b0101_010_001_1_10000 = .andImm 2 1 0b10000 ∧ decode 0b1001_001_000_111111 = .not 1 0 ∧
    decode 0b1001_001_000_000000 = .not 1 0 := by decide

theorem test_decode_control :
    decode 0b0000_0_1_0_000010000 = .br false true false 0b000010000 ∧
    decode 0b0000_1_0_1_111111110 = .br true false true 0b111111110 ∧
    decode 0b1100_000_111_000000 = .jmp 7 ∧ decode 0b1100_111_111_111111 = .jmp 7 ∧
    decode 0b0100_1_00000010000 = .jsr 0b00000010000 ∧ decode 0b0100_0_00_010_000000 = .jsrr 2 ∧
    decode 0b0100_0_11_010_111111 = .jsrr 2 := by decide

theorem test_decode_data_movement :
    decode 0b0010_100_000000010 = .ld 4 0b000000010 ∧ decode 0b1010_001_000000001 = .ldi 1 0b000000001 ∧
    decode 0b0110_001_010_111111 = .ldr 1 2 0b111111 ∧ decode 0b1110_001_100000000 = .lea 1 0b100000000 ∧
    decode 0b0011_001_000000011 = .st 1 0b000000011 ∧ decode 0b1011_001_000000001 = .sti 1 0b000000001 ∧
    decode 0b0111_001_010_000101 = .str 1 2 0b000101 := by decide

theorem test_decode_trap_and_reserved :
    decode 0b1111_0000_00100000 = .trapGetc ∧ decode 0b1111_0000_00100001 = .trapOut ∧
    decode 0b1111_0000_00100010 = .trapPuts ∧ decode 0b1111_0000_00100011 = .trapIn ∧
    decode 0b1111_0000_00100100 = .trapPutsp ∧ decode 0b1111_1111_00100101 = .trapHalt ∧
    decode 0b1111_0000_00100110 = .trapUnrecognised 0x26 ∧ decode 0b1111_0000_00000000 = .trapUnrecognised 0x00 ∧
    decode 0b1000_101010111100 = .rti ∧ decode 0b1101_111111111111 = .res := by decide

/-- The words an encoder emits (R70, R71). -/
theorem test_encode_canonical_words :
    encode (.not 1 0) = 0x923F ∧ encode (.jmp 7) = 0xC1C0 ∧ encode (.trapHalt) = 0xF025 ∧ encode .rti = 0x8000 ∧
    encode (.addImm 0 0 5) = 0x1025 ∧ encode (.br true true true 0x1FF) = 0x0FFF ∧ encode (.jsr 0x010) = 0x4810 := by
  decide

/-- `decodeTableWord` reads a 16-bit word and refuses a longer one (R60). -/
theorem test_decodeTableWord :
    decodeTableWord 16 0x1642 = some (.addReg 3 1 2) ∧ decodeTableWord 16 0xD000 = some .res ∧
    decodeTableWord 32 0x1642 = none := by decide

/-! ## Primitives (95_test_vectors.md section 2.1) -/

theorem test_sext : sext (0b10000#5) = 0xFFF0 ∧ sext (0b01111#5) = 0x000F ∧ sext (0b100000#6) = 0xFFE0 ∧
    sext (0x100#9) = 0xFF00 ∧ sext (0x400#11) = 0xFC00 := by decide

theorem test_condOf : condOf 0x0000 = .zero ∧ condOf 0x0001 = .pos ∧ condOf 0x7FFF = .pos ∧ condOf 0x8000 = .neg ∧
    condOf 0xFFFF = .neg := by decide

/-- S8: the accessor with a key pending and with none. -/
theorem test_memRead_keyboard :
    (let s := withAnswers (withWords State.reset [(0xFE00, 0x1234), (0xFE02, 0x5678)]) [some 0x41]
     (memRead s 0xFE00).1 = 0x8000 ∧ (memRead s 0xFE00).2.memWord 0xFE02 = 0x0041) ∧
    (let s := withAnswers (withWords State.reset [(0xFE00, 0x1234), (0xFE02, 0x5678)]) [none]
     (memRead s 0xFE00).1 = 0x0000 ∧ (memRead s 0xFE00).2.memWord 0xFE02 = 0x5678) := by decide

/-- Log entry 4: the lists that are a stretch as they are, and the ones that get or lose an answer. -/
theorem test_keyboard_stretches :
    mixedStretch [none, some 0x41] = [none, some 0x41] ∧ mixedStretch [some 0x41] = [some 0x41, some 0x00] ∧
    mixedStretch [none] = [none, some 0x00] ∧ busyStretch [none, some 0x41, some 0x00] = [some 0x41] ∧
    busyStretch [none] = [some 0x01] := by decide

/-- Storing what an unlisted address reads as removes the entry (the canonical form). -/
theorem test_memory_canonical :
    (withWords State.reset [(5, 7), (3, 9), (5, 0)]).mem = [(3, 9)] := by decide

/-! ## Operate instructions (section 2.3) -/

/-- ADD-4, ADD-7. -/
theorem test_add_register :
    (after (step (((start 0x1642).setReg 1 0x7FFF).setReg 2 0x0001))).map (fun t => (t.reg 3, t.cond, t.pc)) =
      some (0x8000, .neg, 0x3001) ∧
    (after (step ((start 0x1241).setReg 1 0x4000))).map (fun t => (t.reg 1, t.cond)) = some (0x8000, .neg) := by decide

/-- ADD-1, ADD-10. -/
theorem test_add_immediate :
    (after (step ((start 0x147D).setReg 1 0x0005))).map (fun t => (t.reg 2, t.cond)) = some (0x0002, .pos) ∧
    (after (step ((start 0x1270).setReg 1 0x0010))).map (fun t => (t.reg 1, t.cond)) = some (0x0000, .zero) := by decide

/-- AND-5. -/
theorem test_and_register :
    (after (step (((start 0x5642).setReg 1 0xF0F0).setReg 2 0x0FF0))).map (fun t => (t.reg 3, t.cond)) =
      some (0x00F0, .pos) := by decide

/-- AND-4. -/
theorem test_and_immediate :
    (after (step ((start 0x5470).setReg 1 0xABCD))).map (fun t => (t.reg 2, t.cond)) = some (0xABC0, .neg) := by decide

/-- NOT-1, NOT-4. -/
theorem test_not :
    (after (step (start 0x923F))).map (fun t => (t.reg 1, t.cond)) = some (0xFFFF, .neg) ∧
    (after (step ((start 0x9440).setReg 1 0x00FF))).map (fun t => (t.reg 2, t.cond)) = some (0xFF00, .neg) := by decide

/-! ## Control-transfer instructions (section 2.4) -/

/-- The table of section 2.4, rows 0x0410 and 0x0A10. -/
theorem test_br_conditions :
    ([Cond.neg, .zero, .pos].map fun c => (after (step (withCond (start 0x0410) c))).map State.pc) =
      [some 0x3001, some 0x3011, some 0x3001] ∧
    ([Cond.neg, .zero, .pos].map fun c => (after (step (withCond (start 0x0A10) c))).map State.pc) =
      [some 0x3011, some 0x3001, some 0x3011] := by decide

/-- BR-4, BR-5: the increment and the target wrap. -/
theorem test_br_wraps :
    (after (step (startAt 0xFFFF 0x0E00))).map State.pc = some 0x0000 ∧
    (after (step (startAt 0x0000 0x0FFE))).map State.pc = some 0xFFFF := by decide

/-- JMP-1, JMP-2. -/
theorem test_jmp :
    (after (step ((start 0xC0C0).setReg 3 0x1234))).map (fun t => (t.pc, t.reg 7)) = some (0x1234, 0x0000) ∧
    (after (step ((start 0xC1C0).setReg 7 0x3005))).map State.pc = some 0x3005 := by decide

/-- JSR-2, JSR-4. -/
theorem test_jsr :
    (after (step (start 0x4C00))).map (fun t => (t.reg 7, t.pc)) = some (0x3001, 0x2C01) ∧
    (after (step (startAt 0xFFFF 0x4800))).map (fun t => (t.reg 7, t.pc)) = some (0x0000, 0x0000) := by decide

/-- JSRR-1, JSRR-2: the base register is read after R7 is written. -/
theorem test_jsrr :
    (after (step ((start 0x4080).setReg 2 0x5000))).map (fun t => (t.reg 7, t.pc)) = some (0x3001, 0x5000) ∧
    (after (step ((start 0x41C0).setReg 7 0x5000))).map (fun t => (t.reg 7, t.pc)) = some (0x3001, 0x3001) := by decide

/-! ## Data-movement instructions (section 2.5) -/

/-- LD-1, LD-5. -/
theorem test_ld :
    (after (step (withWords (start 0x2802) [(0x3003, 0x8001)]))).map (fun t => (t.reg 4, t.cond)) = some (0x8001, .neg) ∧
    (after (step (withWords (startAt 0xFFFF 0x2200) [(0x0000, 0x0042)]))).map (fun t => (t.reg 1, t.pc)) =
      some (0x0042, 0x0000) := by decide

/-- LDI-2, LDI-5: the data read polls; the pointer read polls. -/
theorem test_ldi :
    (after (step (withAnswers (withWords (start 0xA201) [(0x3002, 0xFE00), (0xFE00, 0x1234), (0xFE02, 0x5678)])
      [some 0x41]))).map (fun t => (t.reg 1, t.memWord 0xFE00, t.memWord 0xFE02, t.cond)) =
        some (0x8000, 0x8000, 0x0041, .neg) ∧
    (after (step (withAnswers (withWords (startAt 0xFDFF 0xA200) [(0x8000, 0x0BAD), (0x0000, 0x0123)])
      [some 0x41]))).map (fun t => (t.reg 1, t.pc, t.memWord 0xFE02)) = some (0x0BAD, 0xFE00, 0x0041) := by decide

/-- LDR-3, LDR-4. -/
theorem test_ldr :
    (after (step (withWords ((start 0x62A0).setReg 2 0x0010) [(0xFFF0, 0x7FFF)]))).map (fun t => t.reg 1) =
      some 0x7FFF ∧
    (after (step (withWords ((start 0x6480).setReg 2 0x4000) [(0x4000, 0x0000)]))).map (fun t => (t.reg 2, t.cond)) =
      some (0x0000, .zero) := by decide

/-- LEA-3, LEA-6: flags are set, no poll is made. -/
theorem test_lea :
    (after (step (startAt 0x7FFF 0xE200))).map (fun t => (t.reg 1, t.cond)) = some (0x8000, .neg) ∧
    (after (step (withWords (startAt 0xFE01 0xE3FE) [(0xFE00, 0x1234)]))).map (fun t => (t.reg 1, t.memWord 0xFE00)) =
      some (0xFE00, 0x1234) := by decide

/-- ST-3: the stored word is fetched by the very next step. -/
theorem test_st_then_fetch :
    ((after (step ((start 0x3200).setReg 1 0xF025))).bind fun t => after (step t)).map
      (fun t => (t.status, t.reg 7, t.pc)) = some (.halted, 0x3002, 0x3002) := by decide

/-- STI-2, STI-3: the write is not intercepted; the pointer read is. -/
theorem test_sti :
    (after (step (withWords ((start 0xB201).setReg 1 0x00AA) [(0x3002, 0xFE00)]))).map
      (fun t => (t.memWord 0xFE00, t.memWord 0xFE02)) = some (0x00AA, 0x0000) ∧
    (after (step (withAnswers (withWords ((startAt 0xFDFF 0xB200).setReg 1 0x00AA) [(0x8000, 1), (0x0000, 2)])
      [some 0x41]))).map (fun t => (t.memWord 0x8000, t.memWord 0x0000, t.memWord 0xFE02)) =
        some (0x00AA, 0x0002, 0x0041) := by decide

/-- STR-2, STR-3. -/
theorem test_str :
    (after (step ((start 0x72A0).setReg 1 0x1111))).map (fun t => t.memWord 0xFFE0) = some 0x1111 ∧
    (after (step ((start 0x7480).setReg 2 0x4000))).map (fun t => t.memWord 0x4000) = some 0x4000 := by decide

/-! ## TRAP routines and the reserved opcodes (sections 2.6, 2.7, 2.10) -/

/-- GETC-3, H-1. -/
theorem test_getc :
    (after (step (withAnswers (withCond ((start 0xF020).setReg 0 0xFFFF) .neg) [some 0xFF]))).map
      (fun t => (t.reg 0, t.reg 7, t.cond, t.out)) = some (0x00FF, 0x3001, .pos, []) ∧
    faultOf (step (start 0xF020)) = some .heldForKeyboard := by decide

/-- OUT-1. -/
theorem test_out :
    (after (step (withCond ((start 0xF021).setReg 0 0x1241) .neg))).map (fun t => (t.out, t.reg 7, t.cond)) =
      some ([0x41], 0x3001, .neg) := by decide

/-- PUTS-3, PUTS-5: the pointer wraps; the string runs over the keyboard words. -/
theorem test_puts :
    (after (step (withWords ((start 0xF022).setReg 0 0xFFFF) [(0xFFFF, 0x0041), (0x0000, 0x0042)]))).map
      (fun t => (t.out, t.reg 0)) = some ([0x41, 0x42], 0xFFFF) ∧
    (after (step (withAnswers (withWords ((start 0xF022).setReg 0 0xFDFF)
      [(0xFDFF, 0x0041), (0xFE00, 0x0042), (0xFE01, 0x0043)]) [some 0x58]))).map (fun t => t.out) =
        some [0x41, 0x00, 0x43, 0x58] := by decide

/-- IN-2, H-2 (the prompt is a constant without a value, so the output is not compared here). -/
theorem test_in :
    (after (step (withAnswers (withCond (start 0xF023) .pos) [none, some 0x00]))).map
      (fun t => (t.reg 0, t.reg 7, t.cond)) = some (0x0000, 0x3001, .zero) ∧
    faultOf (step (start 0xF023)) = some .heldForKeyboard := by decide

/-- PUTSP-1, PUTSP-2. -/
theorem test_putsp :
    (after (step (withWords ((start 0xF024).setReg 0 0x4000)
      [(0x4000, 0x6548), (0x4001, 0x6C6C), (0x4002, 0x006F)]))).map (fun t => t.out) =
        some [0x48, 0x65, 0x6C, 0x6C, 0x6F] ∧
    (after (step (withWords ((start 0xF024).setReg 0 0x4000) [(0x4000, 0x4100)]))).map (fun t => t.out) =
      some [0x00, 0x41] := by decide

/-- HALT-1, S9: no step after it. -/
theorem test_halt :
    (after (step (start 0xF025))).map (fun t => (t.status, t.reg 7, t.pc)) = some (.halted, 0x3001, 0x3001) ∧
    ((after (step (start 0xF025))).bind fun t => faultOf (step t)) = some .runHalted := by decide

/-- TRAPX-3, TRAPX-5. -/
theorem test_trap_unrecognised :
    (after (step ((start 0xF026).setReg 7 0x1234))).map (fun t => (t.status, t.abort, t.reg 7, t.pc)) =
      some (.aborted, some ⟨.trapVector 0x26, 15, 0x3000⟩, 0x3001, 0x3001) ∧
    (after (step (withAnswers (start 0xF120) [some 0x31]))).map (fun t => (t.status, t.reg 0)) =
      some (.running, 0x0031) := by decide

/-- RTI-1. -/
theorem test_rti :
    (after (step ((start 0x8000).setReg 7 0x2222))).map (fun t => (t.status, t.abort, t.reg 7, t.pc)) =
      some (.aborted, some ⟨.rti, 8, 0x3000⟩, 0x2222, 0x3001) := by decide

/-- RES-2: at 0xFFFF the incremented PC wraps; the record has the address fetched from. -/
theorem test_res :
    (after (step (startAt 0xFFFF 0xDFFF))).map (fun t => (t.status, t.abort, t.pc)) =
      some (.aborted, some ⟨.res, 13, 0xFFFF⟩, 0x0000) := by decide

/-- FE-1 and FE-3 of section 2.8: a fetch from 0xFE00 polls, one from 0xFE02 does not. -/
theorem test_fetch_at_keyboard_words :
    (after (step (withWords (State.reset.setPc 0xFE00) [(0xFE00, 0x1234)]))).map
      (fun t => (t.pc, t.status, t.memWord 0xFE00)) = some (0xFE01, .running, 0x0000) ∧
    (after (step (withWords (State.reset.setPc 0xFE02) [(0xFE02, 0x1025)]))).map (fun t => (t.reg 0, t.pc)) =
      some (0x0005, 0xFE03) := by decide

/-- L-2 and L-3 of section 2.9: a later image wins; words past 0xFFFF are dropped. -/
theorem test_launch :
    (let s := State.launch [] [⟨0x3000, [0x000A, 0x000B, 0x000C]⟩, ⟨0x3001, [0x000D]⟩] 0x3000 ⟨[], .silent⟩
     (s.memWord 0x3000, s.memWord 0x3001, s.memWord 0x3002) = (0x000A, 0x000D, 0x000C)) ∧
    (let s := State.launchOne [] ⟨0xFFFE, [1, 2, 3, 4]⟩ ⟨[], .silent⟩
     (s.memWord 0xFFFE, s.memWord 0xFFFF, s.memWord 0x0000, s.pc) = (1, 2, 0, 0xFFFE)) := by decide

/-! ## Witnesses: states and operands that meet a statement's hypotheses together -/

theorem witness_DecodeEncodeRoundTrip : ∃ i : Instr, i.wellFormed = true := ⟨.trapUnrecognised 0xFF, by decide⟩

theorem witness_ExactlyThreeClassesAreIllegal : ∃ s : State, s.status = .running := ⟨State.reset, rfl⟩

/-- `b = a` and `a ≠ b`, with b beside 0xFE00 and at the top of memory. -/
theorem witness_LoadAfterStore : (∃ a b : Word, b ≠ 0xFE00 ∧ b = a) ∧ (∃ a b : Word, b ≠ 0xFE00 ∧ a ≠ b) :=
  ⟨⟨0xFE01, 0xFE01, by decide⟩, ⟨0xFE00, 0xFFFF, by decide⟩⟩

/-- Each clause: a read that changes KBDR, a write that does, and a step that does. -/
theorem witness_KeyboardDataWordIsPlain :
    (∃ (s : State) (a : Word), (memRead s a).2.memWord 0xFE02 ≠ s.memWord 0xFE02) ∧
    (∃ (s : State) (a v : Word), (memWrite s a v).memWord 0xFE02 ≠ s.memWord 0xFE02) ∧
    (∃ s t : State, step s = .next t ∧ t.memWord 0xFE02 ≠ s.memWord 0xFE02) :=
  ⟨⟨withAnswers State.reset [some 0x41], 0xFE00, by decide⟩, ⟨State.reset, 0xFE02, 0xFFFF, by decide⟩,
   ⟨((start 0x7280).setReg 1 0x0055).setReg 2 0xFE02, _, rfl, by decide⟩⟩

theorem witness_CanonicalMemoriesReadingAlikeAreEqual :
    ∃ m₁ m₂ : Memory, m₁.wf ∧ m₂.wf ∧ m₁ ≠ [] ∧ ∀ a : Word, m₁.read a.toNat = m₂.read a.toNat :=
  ⟨[(0, 1), (65535, 2)], [(0, 1), (65535, 2)], by decide, by decide, by decide, fun _ => rfl⟩

theorem witness_LaunchedRunsMeetInvariant :
    ∃ (memInit : Memory) (images : List Image) (entry : Word) (kbd : Keyboard) (t : State), memInit.wf ∧
      memInit ≠ [] ∧ Reaches (State.launch memInit images entry kbd) t :=
  ⟨[(5, 1)], [⟨0x3000, [0x1025]⟩], 0x3000, ⟨[], .silent⟩, _, by decide, by decide, 0, rfl⟩

theorem witness_StepRunsTheDecodedInstruction :
    ∃ (s : State) (i : Instr), s.status = .running ∧ s.pc ≠ 0xFE00 ∧ i.wellFormed = true ∧
      decode (s.memWord s.pc) = i :=
  ⟨start 0x1642, .addReg 3 1 2, by decide⟩

theorem witness_FetchFromKeyboardStatusPolls :
    (∃ s : State, s.status = .running ∧ s.pc = 0xFE00 ∧ s.kbd.poll.1 = none) ∧
    (∃ s : State, s.status = .running ∧ s.pc = 0xFE00 ∧ s.kbd.poll.1 ≠ none) :=
  ⟨⟨State.reset.setPc 0xFE00, by decide⟩, ⟨withAnswers (State.reset.setPc 0xFE00) [some 0x41], by decide⟩⟩

theorem witness_StoreIsSeenByTheNextFetch :
    ∃ (s : State) (sr : Reg), s.status = .running ∧ s.pc ≠ 0xFE00 ∧ s.pc + 1 ≠ 0xFE00 ∧
      decode (s.memWord s.pc) = .st sr 0 :=
  ⟨startAt 0xFFFF 0x3200, 1, by decide⟩

theorem witness_NoStepAfterTheEnd :
    (∃ s : State, s.status = .halted ∧ s.status ≠ .running) ∧ (∃ s : State, s.status = .aborted ∧ s.status ≠ .running) :=
  ⟨⟨haltRun State.reset, by decide⟩, ⟨raiseInvalid State.reset .rti 8 0x2FFF, by decide⟩⟩

/-- Every clause: a next RUNNING state, HALTED, ABORTED, held; the hang has its own witness below. -/
theorem witness_OnlyTheseStepsDoNotGoOn :
    (∃ s t : State, s.status = .running ∧ step s = .next t ∧ t.status = .running) ∧
    (∃ s t : State, s.status = .running ∧ step s = .next t ∧ t.status = .halted) ∧
    (∃ s : State, s.status = .running ∧ step s = .fault .heldForKeyboard) :=
  ⟨⟨start 0x1025, _, rfl, rfl, rfl⟩, ⟨start 0xF025, _, rfl, rfl, rfl⟩, ⟨start 0xF020, rfl, rfl⟩⟩

/-- A step that aborts, for each of the three causes. -/
theorem witness_AbortTransition :
    (∃ s t : State, s.status = .running ∧ step s = .next t ∧ t.status = .aborted ∧ t.abort = some ⟨.rti, 8, 0x3000⟩) ∧
    (∃ s t : State, s.status = .running ∧ step s = .next t ∧ t.status = .aborted ∧ t.abort = some ⟨.res, 13, 0x3000⟩) ∧
    (∃ s t : State, s.status = .running ∧ step s = .next t ∧ t.status = .aborted ∧
      t.abort = some ⟨.trapVector 0x1F, 15, 0x3000⟩) :=
  ⟨⟨start 0x8FFF, _, rfl, rfl, rfl, rfl⟩, ⟨start 0xD000, _, rfl, rfl, rfl, rfl⟩, ⟨start 0xF01F, _, rfl, rfl, rfl, rfl⟩⟩

theorem inv_start (w : Word) : Inv (start w) :=
  ⟨memWrite_wf (s := State.reset) Memory.wf_nil _ _, trivial⟩

theorem witness_StepKeepsInvariant : ∃ s t : State, Inv s ∧ step s = .next t ∧ t.status = .aborted :=
  ⟨start 0xF0FF, _, inv_start _, rfl, rfl⟩

/-- An instruction that may write to the console and one that may not. -/
theorem witness_OutputOnlyGrows :
    (∃ s t : State, step s = .next t ∧ (decode (fetch s).1).writesConsole = true) ∧
    (∃ s t : State, step s = .next t ∧ (decode (fetch s).1).writesConsole = false) :=
  ⟨⟨start 0xF021, _, rfl, by decide⟩, ⟨start 0x1025, _, rfl, by decide⟩⟩

theorem witness_OnlyTransfersSetPc : ∃ s t : State, step s = .next t ∧ (decode (fetch s).1).isTransfer = false :=
  ⟨start 0xF025, _, rfl, by decide⟩

theorem witness_OnlyRegisterDefinersSetCond :
    (∃ s t : State, step s = .next t ∧ (decode (fetch s).1).setsCondFrom = some 7) ∧
    (∃ s t : State, step s = .next t ∧ (decode (fetch s).1).setsCondFrom = none) :=
  ⟨⟨start 0xEE00, _, rfl, by decide⟩, ⟨start 0x4080, _, rfl, by decide⟩⟩

theorem witness_OnlyNamedRegistersAreWritten :
    ∃ s t : State, step s = .next t ∧ (decode (fetch s).1).links = true := ⟨start 0x41C0, _, rfl, by decide⟩

/-- An ordinary address in a step that polls, and each keyboard word in a step that reads 0xFE00 nowhere. -/
theorem witness_OnlyStoresAndPollsChangeMemory :
    (∃ (s t : State) (a : Word), step s = .next t ∧ (decode (fetch s).1).storeAddr (fetch s).2 ≠ some a ∧
      a ≠ 0xFE00 ∧ a ≠ 0xFE02 ∧ s.pc = 0xFE00) ∧
    (∃ s t : State, step s = .next t ∧ (decode (fetch s).1).storeAddr (fetch s).2 ≠ some 0xFE00 ∧
      (decode (fetch s).1).storeAddr (fetch s).2 ≠ some 0xFE02 ∧
      s.pc ≠ 0xFE00 ∧ ¬ (decode (fetch s).1).readsKbsr (fetch s).2) :=
  ⟨⟨State.reset.setPc 0xFE00, _, 0xFE01, rfl, by decide⟩, ⟨withAnswers (start 0xF020) [some 0x41], _, rfl, by
    have h : decode (fetch (withAnswers (start 0xF020) [some 0x41])).1 = .trapGetc := by decide
    rw [h]
    simp only [Instr.readsKbsr]
    decide⟩⟩

theorem witness_StepIgnoresKeyboardUnlessAsked :
    ∃ s t : State, s.pc ≠ 0xFE00 ∧ ¬ (decode (s.memWord s.pc)).asksKeyboard (s.setPc (s.pc + 1)) ∧ step s = .next t :=
  ⟨start 0x2802, _, by decide, by
    have h : decode ((start 0x2802).memWord (start 0x2802).pc) = .ld 4 2 := by decide
    rw [h]
    simp only [Instr.asksKeyboard, Instr.readsKbsr]
    decide, rfl⟩

/-- A word for each decode clause of the statements about ADD, AND and JSR/JSRR, whose rows have two conditions. -/
theorem witness_decode_clauses :
    (∃ w : Word, w.extractLsb' 12 4 = 0x1#4 ∧ w.getLsbD 5 = false) ∧ (∃ w : Word, w.extractLsb' 12 4 = 0x1#4 ∧ w.getLsbD 5 = true) ∧
    (∃ w : Word, w.extractLsb' 12 4 = 0x5#4 ∧ w.getLsbD 5 = false) ∧ (∃ w : Word, w.extractLsb' 12 4 = 0x5#4 ∧ w.getLsbD 5 = true) ∧
    (∃ w : Word, w.extractLsb' 12 4 = 0x4#4 ∧ w.getLsbD 11 = true) ∧
    (∃ w : Word, w.extractLsb' 12 4 = 0x4#4 ∧ w.getLsbD 11 = false) :=
  ⟨⟨0x1FDF, by decide⟩, ⟨0x1FFF, by decide⟩, ⟨0x5FDF, by decide⟩, ⟨0x5FFF, by decide⟩, ⟨0x4FFF, by decide⟩, ⟨0x47FF, by decide⟩⟩

/-- A word for each decode clause of the statements about the rows that the opcode alone selects. -/
theorem witness_decode_clauses_opcode :
    ∀ n : BitVec 4, ∃ w : Word, w.extractLsb' 12 4 = n ∧ w &&& 0x0FFF = 0x0FFF := by
  intro n
  refine ⟨n ++ 0xFFF#12, ?_⟩
  revert n
  decide

/-- A word for the decode clause of each TRAP statement: each named vector, and the two edges of the unrecognised ones. -/
theorem witness_decode_clauses_trap :
    (∀ v : BitVec 3, ∃ w : Word, w.extractLsb' 12 4 = 0xF#4 ∧ w.extractLsb' 0 8 = 0b00100#5 ++ v) ∧
    (∃ w : Word, w.extractLsb' 12 4 = 0xF#4 ∧ (w.extractLsb' 0 8).toNat < 0x20 ∧ (w.extractLsb' 0 8).toNat + 1 = 0x20) ∧
    (∃ w : Word, w.extractLsb' 12 4 = 0xF#4 ∧ 0x25 < (w.extractLsb' 0 8).toNat ∧ (w.extractLsb' 0 8).toNat = 0x26) := by
  refine ⟨fun v => ⟨0xF0#8 ++ 0b00100#5 ++ v, ?_⟩, ⟨0xF01F, by decide⟩, ⟨0xF026, by decide⟩⟩
  revert v
  decide

theorem witness_LoadIndirect_StoreIndirect :
    ∃ (off9 : BitVec 9) (s m : State) (ptr : Word), memRead s (s.pc + off9.signExtend 16) = (ptr, m) :=
  ⟨0x100, State.reset, _, _, rfl⟩

/-- Each kind of tail: the hypothesis is met by the two that are not silent. -/
theorem witness_KeyboardSharesOneInput : ∀ env n, KeyTail.mixed env n ≠ .silent ∧ KeyTail.busy env n ≠ .silent :=
  fun _ _ => ⟨by simp, by simp⟩

/-- GETC and IN with a character, and with none to come. -/
theorem witness_TrapGetc_TrapIn :
    (∃ (s : State) (c : Byte) (k : Keyboard), s.kbd.get = some (c, k)) ∧ (∃ s : State, s.kbd.get = none) :=
  ⟨⟨withAnswers State.reset [none, some 0x00], 0x00, ⟨[], .silent⟩, by decide⟩, ⟨State.reset, by decide⟩⟩

/-- PUTS and PUTSP with an empty string at the top of memory, and with one that runs over the keyboard words (PUTS-6). -/
theorem witness_TrapPuts_TrapPutsp :
    (∃ (s : State) (n : Nat), (∀ k < n, wordRead s (s.reg 0) k ≠ 0x0000) ∧ wordRead s (s.reg 0) n = 0x0000 ∧ n = 0) ∧
    (∃ (s : State) (n : Nat), (∀ k < n, wordRead s (s.reg 0) k ≠ 0x0000) ∧ wordRead s (s.reg 0) n = 0x0000 ∧
      s.reg 0 + BitVec.ofNat 16 n = 0xFE00) :=
  ⟨⟨State.reset.setReg 0 0xFFFF, 0, by decide⟩,
   ⟨withWords (State.reset.setReg 0 0xFDFF) [(0xFDFF, 0x0041), (0xFE00, 0x0042)], 1, by decide⟩⟩

/-! ## The hang is there: a memory with no zero word and a keyboard that always has a key -/

/-- Every word from `a` on, `n` of them, holds 1. -/
def ones (a n : Nat) : Memory := (List.range' a n).map (fun b => (b, 0x0001))

theorem read_ones (a n b : Nat) : (ones a n).read b = if a ≤ b ∧ b < a + n then 0x0001 else Memory.unlisted := by
  induction n generalizing a with
  | zero =>
    have : ¬ (a ≤ b ∧ b < a + 0) := by omega
    simp [ones, Memory.read]
  | succ n ih =>
    have ih := ih (a + 1)
    simp only [ones, List.range'_succ, List.map_cons, Memory.read] at ih ⊢
    by_cases hb : a = b
    · subst hb
      simp
    · rw [if_neg hb, ih]
      congr 1
      simp only [eq_iff_iff]
      omega

/-- A state in which no read of a string routine ever returns a zero word (70_reset_and_hazards.md R169). -/
def endless : State := { State.reset with mem := ones 0 65536, kbd := ⟨[], .busy 0 0⟩ }

/-- What every read keeps in it: no zero word, and a key at every poll. -/
def Endless (s : State) : Prop := (∀ a : Word, s.memWord a ≠ 0x0000) ∧
  ∃ (l : List (Option Byte)) (env n : Nat), s.kbd = ⟨l, .busy env n⟩ ∧ ∀ a ∈ l, endsString a = false

theorem endless_endless : Endless endless := by
  refine ⟨fun a => ?_, [], 0, 0, rfl, by simp⟩
  have h : a.toNat < 65536 := a.isLt
  show (ones 0 65536).read a.toNat ≠ 0x0000
  rw [read_ones, if_pos (by omega)]
  decide

theorem endless_intercept {s : State} (h : Endless s) (a : Word) : Endless (intercept s a) := by
  unfold intercept
  split
  · obtain ⟨hm, l, env, n, hk, hl⟩ := h
    obtain ⟨c, later, m, hc, hlater, hp⟩ := Keyboard.poll_busy l env n hl
    refine ⟨fun b => ?_, later, env, m, by rw [pollKbsr_kbd, hk, hp], hlater⟩
    by_cases h₁ : b = kbsrAddr
    · subst h₁
      rw [pollKbsr_memWord_kbsr, hk, hp]
      simp [kbsrReady]
    · by_cases h₂ : b = kbdrAddr
      · subst h₂
        rw [pollKbsr_memWord_kbdr, hk, hp]
        have hz : ∀ c : Byte, c ≠ 0x00 → zext16 c ≠ 0x0000 := by decide
        exact hz c hc
      · rw [pollKbsr_memWord_other s h₁ h₂]
        exact hm b
  · exact h

theorem endless_readsFrom {s : State} (h : Endless s) (a : Word) (n : Nat) : Endless (readsFrom s a n) := by
  induction n with
  | zero => exact h
  | succ n ih => exact endless_intercept ih _

theorem witness_StringRoutineHangsOnlyWithoutZeroWord :
    (∃ s : State, ∀ n, wordRead s (s.reg 0) n ≠ 0x0000) ∧ (∃ (s : State) (n : Nat), wordRead s (s.reg 0) n = 0x0000) :=
  ⟨⟨endless, fun n => (endless_intercept (endless_readsFrom endless_endless _ n) _).1 _⟩, ⟨State.reset, 0, by decide⟩⟩

theorem endless_printString (bytesOf : Word → List Byte) (fuel : Nat) (a : Word) {s : State} (h : Endless s) :
    printString bytesOf fuel a s = none := by
  induction fuel generalizing a s with
  | zero => rfl
  | succ n ih =>
    rw [printString_succ, if_neg ((endless_intercept h a).1 a)]
    exact ih (a + 1) ⟨fun b => (endless_intercept h a).1 b, (endless_intercept h a).2⟩

/-- In such a memory PUTS at any address but 0xFE00 is a step that never completes. -/
theorem endless_step {s : State} (h : Endless s) (hs : s.status = .running) (hk : s.pc ≠ kbsrAddr)
    (hw : s.memWord s.pc = 0xF022) : step s = .fault .stringNeverEnds := by
  have hf : fetch s = (0xF022, s.setPc (s.pc + 1)) := by rw [fetch_eq, memRead_plain s hk, hw]
  have hd : decode 0xF022 = .trapPuts := by decide
  rw [step_running hs, hf, hd]
  show putString putsBytes (link (s.setPc (s.pc + 1))) = _
  unfold putString
  have hl : Endless (link (s.setPc (s.pc + 1))) := ⟨fun b => h.1 b, h.2⟩
  rw [endless_printString putsBytes _ _ hl]

/-- So a RUNNING machine can hang inside one step. -/
theorem witness_hanging_step : ∃ s : State, s.status = .running ∧ step s = .fault .stringNeverEnds := by
  refine ⟨memWrite endless 0x3000 0xF022, rfl, endless_step ⟨fun a => ?_, endless_endless.2⟩ rfl ?_ (memWord_memWrite_same _ _ _)⟩
  · rw [memWord_memWrite]
    split
    · decide
    · exact endless_endless.1 a
  · show (0x3000 : Word) ≠ kbsrAddr
    decide

end Sys2Proof.Tests
end

section
/-! PROOFS. Sign extension of a field (R8). -/

namespace Sys2Proof.Machine

/-- R8 for a field of any width up to a word: a set top bit adds `65536 - 2 ^ n`. -/
theorem toNat_sext {n : Nat} (hn : n ≤ 16) (v : BitVec n) :
    (sext v).toNat = if v.getLsbD (n - 1) then v.toNat + (65536 - 2 ^ n) else v.toNat := by
  rw [sext, BitVec.toNat_signExtend, BitVec.toNat_setWidth_of_le hn, BitVec.msb_eq_getLsbD_last]
  split
  · rfl
  · exact Nat.add_zero _

/-- Settles O6: `toNat_sext` at the four field widths. -/
theorem signExtensionOfFields : Obligations.SignExtensionOfFields :=
  ⟨toNat_sext (by decide), toNat_sext (by decide), toNat_sext (by decide), toNat_sext (by decide)⟩

end Sys2Proof.Machine
end

section
/-! PROOFS. The two memory accesses (20_memory.md R42, R43): the one word of a write, the one poll of a read of 0xFE00. -/

namespace Sys2Proof.Machine

/-! ## The write -/

theorem sameMemoryBut_memWrite (s : State) (a v : Word) : sameMemoryBut [a] s (memWrite s a v) :=
  fun _ hb => memWord_memWrite_ne s v (List.ne_of_not_mem_cons hb)

/-- Settles O8: the written word reads back, every other word by `sameMemoryBut_memWrite`, every other field is untouched. -/
theorem memWriteStoresOneWord : Obligations.MemWriteStoresOneWord := fun s a v =>
  ⟨memWord_memWrite_same s a v, sameMemoryBut_memWrite s a v, fun i _ => memWrite_reg s a v i, memWrite_pc s a v,
    memWrite_cond s a v, ⟨memWrite_status s a v, memWrite_abort s a v⟩, ⟨memWrite_kbd s a v, memWrite_out s a v⟩⟩

/-! ## The read -/

theorem sameMemoryBut_pollKbsr (s : State) : sameMemoryBut [kbsrAddr, kbdrAddr] s (pollKbsr s) := fun _ ha =>
  pollKbsr_memWord_other s (List.ne_of_not_mem_cons ha) (List.ne_of_not_mem_cons (List.not_mem_of_not_mem_cons ha))

/-- R43 at 0xFE00: the two keyboard words follow the one answer the poll takes. -/
theorem readEffect_pollKbsr (s : State) : readEffect kbsrAddr s (pollKbsr s) := by
  rw [readEffect, if_pos rfl]
  refine ⟨sameMemoryBut_pollKbsr s, pollKbsr_kbd s, ?_⟩
  rw [pollKbsr_memWord_kbsr, pollKbsr_memWord_kbdr]
  cases s.kbd.poll.1 with
  | none => exact ⟨rfl, rfl⟩
  | some c => exact ⟨rfl, rfl⟩

/-- The interception at any address has the effect of one `MemRead` there (R43, R49). -/
theorem readEffect_intercept (s : State) (a : Word) : readEffect a s (intercept s a) := by
  by_cases ha : a = kbsrAddr
  · subst ha
    rw [intercept_kbsr]
    exact readEffect_pollKbsr s
  · rw [intercept_of_ne s ha, readEffect, if_neg ha]
    exact ⟨fun _ => rfl, rfl⟩

/-- Settles O9: a read is its interception, whose effect is `readEffect_intercept` and which leaves the other fields alone. -/
theorem memReadPollsAtKeyboardStatus : Obligations.MemReadPollsAtKeyboardStatus := fun s a =>
  ⟨memRead_fst s a, readEffect_intercept s a, fun ha => intercept_of_ne s ha, fun i _ => intercept_reg s a i,
    intercept_pc s a, intercept_cond s a, ⟨intercept_status s a, intercept_abort s a⟩, intercept_out s a, rfl, rfl⟩

end Sys2Proof.Machine
end

section
/-! PROOFS. The operate instructions (40_operate.md R80 to R85): the decoder on their three opcodes, and the one effect they
share, a value into DR with the flags set from it. -/

namespace Sys2Proof

/-! ## The decoder on ADD, AND, NOT (R63, R65) -/

theorem decode_of_opcode_add {w : Word} (h : w.extractLsb' 12 4 = 0x1#4) : decode w =
    if fieldImmMode w then .addImm (fieldDR w) (fieldSR1 w) (fieldImm5 w)
    else .addReg (fieldDR w) (fieldSR1 w) (fieldSR2 w) := by
  rw [decode, fieldOpcode, h]
  rfl

theorem decode_of_opcode_and {w : Word} (h : w.extractLsb' 12 4 = 0x5#4) : decode w =
    if fieldImmMode w then .andImm (fieldDR w) (fieldSR1 w) (fieldImm5 w)
    else .andReg (fieldDR w) (fieldSR1 w) (fieldSR2 w) := by
  rw [decode, fieldOpcode, h]
  rfl

theorem decode_of_opcode_not {w : Word} (h : w.extractLsb' 12 4 = 0x9#4) :
    decode w = .not (fieldDR w) (fieldSR1 w) := by
  rw [decode, fieldOpcode, h]
  rfl

end Sys2Proof

namespace Sys2Proof.Machine

/-! ## The shared effect -/

theorem changesOnlyRegs_defineReg (s : State) (dr : Reg) (v : Word) : changesOnlyRegs [dr] s (defineReg s dr v) :=
  ⟨fun _ hi => defineReg_reg_ne s v (List.ne_of_not_mem_cons hi), defineReg_memWord s dr v,
    ⟨defineReg_status s dr v, defineReg_abort s dr v⟩, ⟨defineReg_kbd s dr v, defineReg_out s dr v⟩⟩

/-- R26 with its frame: an instruction that does no more than define DR completes with the value in DR and COND from it. -/
theorem completes_of_exec_eq_defineReg {i : Instr} {s : State} {dr : Reg} {v : Word}
    (h : exec i s = .next (defineReg s dr v)) : ∃ t, exec i s = .next t ∧
      t.reg dr = v ∧ t.cond = condOf (t.reg dr) ∧ t.pc = s.pc ∧ changesOnlyRegs [dr] s t := by
  refine ⟨_, h, defineReg_reg_same s dr v, ?_, defineReg_pc s dr v, changesOnlyRegs_defineReg s dr v⟩
  rw [defineReg_cond, defineReg_reg_same]

/-! ## The five instructions -/

/-- Settles O34: `exec` defines DR with the sum of the two registers. -/
theorem addRegisterForm : Obligations.AddRegisterForm :=
  ⟨fun _ hop hmode => (decode_of_opcode_add hop).trans (if_neg (Bool.eq_false_iff.mp hmode)),
    fun _ _ _ _ => completes_of_exec_eq_defineReg rfl⟩

/-- Settles O35: `exec` defines DR with the sum of the register and the sign-extended immediate. -/
theorem addImmediateForm : Obligations.AddImmediateForm :=
  ⟨fun _ hop hmode => (decode_of_opcode_add hop).trans (if_pos hmode),
    fun _ _ _ _ => completes_of_exec_eq_defineReg rfl⟩

/-- Settles O36: `exec` defines DR with the conjunction of the two registers. -/
theorem andRegisterForm : Obligations.AndRegisterForm :=
  ⟨fun _ hop hmode => (decode_of_opcode_and hop).trans (if_neg (Bool.eq_false_iff.mp hmode)),
    fun _ _ _ _ => completes_of_exec_eq_defineReg rfl⟩

/-- Settles O37: `exec` defines DR with the register masked by the sign-extended immediate. -/
theorem andImmediateForm : Obligations.AndImmediateForm :=
  ⟨fun _ hop hmode => (decode_of_opcode_and hop).trans (if_pos hmode),
    fun _ _ _ _ => completes_of_exec_eq_defineReg rfl⟩

/-- Settles O38: `exec` defines DR with the complement, which is 65535 minus the source by `BitVec.toNat_not`. -/
theorem notComplementsSource : Obligations.NotComplementsSource := by
  refine ⟨fun _ hop => decode_of_opcode_not hop, fun dr sr s => ?_⟩
  obtain ⟨t, hexec, hreg, heffect⟩ := completes_of_exec_eq_defineReg (i := .not dr sr) (s := s) rfl
  have hnat : (t.reg dr).toNat = 65535 - (s.reg sr).toNat := by
    rw [hreg, BitVec.toNat_not]
  exact ⟨t, hexec, hreg, hnat, heffect⟩

end Sys2Proof.Machine
end

section
/-! PROOFS. The control transfers (41_control.md R90 to R95): the decoder on their three opcodes, and the two effects they
share, a jump and a jump that links. -/

namespace Sys2Proof

/-! ## The decoder on BR, JMP, JSR and JSRR (R63, R65) -/

theorem decode_of_opcode_br {w : Word} (h : w.extractLsb' 12 4 = 0x0#4) :
    decode w = .br (w.getLsbD 11) (w.getLsbD 10) (w.getLsbD 9) (fieldPCoffset9 w) := by
  rw [decode, fieldOpcode, h]
  rfl

theorem decode_of_opcode_jmp {w : Word} (h : w.extractLsb' 12 4 = 0xC#4) : decode w = .jmp (fieldSR1 w) := by
  rw [decode, fieldOpcode, h]
  rfl

theorem decode_of_opcode_jsr {w : Word} (h : w.extractLsb' 12 4 = 0x4#4) :
    decode w = if fieldJsrMode w then .jsr (fieldPCoffset11 w) else .jsrr (fieldSR1 w) := by
  rw [decode, fieldOpcode, h]
  rfl

end Sys2Proof

namespace Sys2Proof.Machine

/-! ## The two shared effects -/

theorem changesOnlyRegs_setPc (s : State) (v : Word) : changesOnlyRegs [] s (s.setPc v) :=
  ⟨fun i _ => setPc_reg s v i, setPc_memWord s v, ⟨setPc_status s v, setPc_abort s v⟩,
    ⟨setPc_kbd s v, setPc_out s v⟩⟩

theorem changesOnlyRegs_link (s : State) : changesOnlyRegs [7] s (link s) :=
  ⟨fun _ hi => link_reg_ne s (List.ne_of_not_mem_cons hi), link_memWord s, ⟨link_status s, link_abort s⟩,
    ⟨link_kbd s, link_out s⟩⟩

/-- The registers after the linkage, R7 among them: what JSRR reads as its target (R94). -/
theorem link_reg (s : State) (i : Reg) : (link s).reg i = if i = 7 then s.pc else s.reg i := by
  split
  next h => rw [h, link_reg_seven]
  next h => exact link_reg_ne s h

/-- An instruction that does no more than set PC completes there, and nothing else changes. -/
theorem completes_of_exec_eq_setPc {i : Instr} {s : State} {v : Word} (h : exec i s = .next (s.setPc v)) :
    ∃ t, exec i s = .next t ∧ t.pc = v ∧ t.cond = s.cond ∧ changesOnlyRegs [] s t :=
  ⟨_, h, setPc_pc s v, setPc_cond s v, changesOnlyRegs_setPc s v⟩

/-- R22 with its frame: an instruction that links and sets PC completes there with the incremented PC in R7. -/
theorem completes_of_exec_eq_link_setPc {i : Instr} {s : State} {v : Word}
    (h : exec i s = .next ((link s).setPc v)) : ∃ t, exec i s = .next t ∧
      t.reg 7 = s.pc ∧ t.pc = v ∧ t.cond = s.cond ∧ changesOnlyRegs [7] s t :=
  ⟨_, h, link_reg_seven s, setPc_pc _ v, link_cond s, changesOnlyRegs_link s⟩

/-! ## The branch (R90) -/

theorem brTaken_iff (n z p : Bool) (c : Cond) : brTaken n z p c = true ↔
    (n = true ∧ c = .neg) ∨ (z = true ∧ c = .zero) ∨ (p = true ∧ c = .pos) := by
  cases c with
  | neg => simp [brTaken]
  | zero => simp [brTaken]
  | pos => simp [brTaken]

/-- BR as a jump: an untaken branch sets PC to the incremented PC, where it stands already. -/
theorem exec_br (n z p : Bool) (off9 : BitVec 9) (s : State) : exec (.br n z p off9) s =
    .next (s.setPc (if brTaken n z p s.cond then pcRelative9 s off9 else s.pc)) := by
  change Host.Outcome.next (if brTaken n z p s.cond then s.setPc (pcRelative9 s off9) else s.setPc s.pc) = _
  rw [apply_ite s.setPc]

/-- Settles O39: BR is the jump of `exec_br`, taken under R90's condition by `brTaken_iff`. -/
theorem branchOnCondition : Obligations.BranchOnCondition := by
  refine ⟨fun _ hop => decode_of_opcode_br hop, fun n z p off9 s => ?_⟩
  obtain ⟨t, hexec, hpc, hframe⟩ := completes_of_exec_eq_setPc (exec_br n z p off9 s)
  simp only [brTaken_iff] at hpc
  exact ⟨t, hexec, hpc, hframe⟩

/-! ## The jumps (R91 to R94) -/

/-- Settles O40: `exec` sets PC to the base register; RET is the word of opcode 0xC with 7 in the base field. -/
theorem jumpThroughRegister : Obligations.JumpThroughRegister :=
  ⟨fun _ hop => decode_of_opcode_jmp hop, decode_of_opcode_jmp (w := 0xC1C0) rfl,
    fun _ _ => completes_of_exec_eq_setPc rfl⟩

/-- Settles O41: `exec` links and adds the sign-extended offset to the PC that the linkage leaves alone. -/
theorem jumpToSubroutine : Obligations.JumpToSubroutine :=
  ⟨fun _ hop hmode => (decode_of_opcode_jsr hop).trans (if_pos hmode),
    fun _ _ => completes_of_exec_eq_link_setPc rfl⟩

/-- Settles O42: `exec` links and then reads the base register, so `link_reg` gives the target and its exception for R7. -/
theorem jumpToSubroutineRegister : Obligations.JumpToSubroutineRegister := by
  refine ⟨fun _ hop hmode => (decode_of_opcode_jsr hop).trans (if_neg (Bool.eq_false_iff.mp hmode)), fun base s => ?_⟩
  rw [← link_reg s base]
  exact completes_of_exec_eq_link_setPc rfl

end Sys2Proof.Machine
end

section
/-! PROOFS. The data-movement instructions (42_data_movement.md R100 to R107): the decoder on their seven opcodes, and the
two effects they share, a load of one word and a store of one word. -/

namespace Sys2Proof

/-! ## The decoder on LD, LDI, LDR, LEA, ST, STI, STR (R65) -/

theorem decode_of_opcode_ld {w : Word} (h : w.extractLsb' 12 4 = 0x2#4) :
    decode w = .ld (fieldDR w) (fieldPCoffset9 w) := by
  rw [decode, fieldOpcode, h]
  rfl

theorem decode_of_opcode_ldi {w : Word} (h : w.extractLsb' 12 4 = 0xA#4) :
    decode w = .ldi (fieldDR w) (fieldPCoffset9 w) := by
  rw [decode, fieldOpcode, h]
  rfl

theorem decode_of_opcode_ldr {w : Word} (h : w.extractLsb' 12 4 = 0x6#4) :
    decode w = .ldr (fieldDR w) (fieldSR1 w) (fieldOffset6 w) := by
  rw [decode, fieldOpcode, h]
  rfl

theorem decode_of_opcode_lea {w : Word} (h : w.extractLsb' 12 4 = 0xE#4) :
    decode w = .lea (fieldDR w) (fieldPCoffset9 w) := by
  rw [decode, fieldOpcode, h]
  rfl

theorem decode_of_opcode_st {w : Word} (h : w.extractLsb' 12 4 = 0x3#4) :
    decode w = .st (fieldDR w) (fieldPCoffset9 w) := by
  rw [decode, fieldOpcode, h]
  rfl

theorem decode_of_opcode_sti {w : Word} (h : w.extractLsb' 12 4 = 0xB#4) :
    decode w = .sti (fieldDR w) (fieldPCoffset9 w) := by
  rw [decode, fieldOpcode, h]
  rfl

theorem decode_of_opcode_str {w : Word} (h : w.extractLsb' 12 4 = 0x7#4) :
    decode w = .str (fieldDR w) (fieldSR1 w) (fieldOffset6 w) := by
  rw [decode, fieldOpcode, h]
  rfl

end Sys2Proof

namespace Sys2Proof.Machine

/-! ## The shared effects -/

theorem loadInto_eq (dr : Reg) (a : Word) (s : State) :
    loadInto dr a s = defineReg (intercept s a) dr ((intercept s a).memWord a) := rfl

/-- R101's tail with its frame: an instruction that ends with a load from `m` completes with the word read in DR and COND
from it. The read need not start in the state `s` of the instruction: LDI's starts after its pointer read. -/
theorem completes_of_exec_eq_loadInto {i : Instr} {s m : State} {dr : Reg} {a : Word}
    (h : exec i s = .next (loadInto dr a m)) : ∃ t, exec i s = .next t ∧
      t.reg dr = (memRead m a).1 ∧ t.reg dr = t.memWord a ∧ readEffect a m t ∧ t.cond = condOf (t.reg dr) ∧
      t.pc = m.pc ∧ sameRegsBut [dr] m t ∧ sameRun m t ∧ t.out = m.out := by
  rw [loadInto_eq] at h
  refine ⟨_, h, defineReg_reg_same _ dr _, defineReg_reg_same _ dr _, readEffect_intercept m a, ?_, intercept_pc m a,
    fun i hi => ?_, ⟨intercept_status m a, intercept_abort m a⟩, intercept_out m a⟩
  · rw [defineReg_cond, defineReg_reg_same]
  · rw [defineReg_reg_ne _ _ (List.ne_of_not_mem_cons hi), intercept_reg]

/-- The plain store with its frame (R105): an instruction that ends with a store in `m` completes with the word stored.
STI's `m` is the state after its pointer read. -/
theorem completes_of_exec_eq_memWrite {i : Instr} {s m : State} {a v : Word}
    (h : exec i s = .next (memWrite m a v)) : ∃ t, exec i s = .next t ∧
      t.memWord a = v ∧ sameMemoryBut [a] m t ∧ t.pc = m.pc ∧ t.cond = m.cond ∧ sameRegsBut [] m t ∧
      sameRun m t ∧ sameDevices m t := by
  obtain ⟨hword, hmem, hregs, hpc, hcond, hrun, hdev⟩ := memWriteStoresOneWord m a v
  exact ⟨_, h, hword, hmem, hpc, hcond, hregs, hrun, hdev⟩

/-- What the pointer read of LDI and STI gives (R102, R106): its effect, the pointer as the word stored after it, and
nothing else of the state changed. -/
theorem effect_of_memRead_eq {s m : State} {a ptr : Word} (h : memRead s a = (ptr, m)) :
    readEffect a s m ∧ ptr = m.memWord a ∧ sameRegsBut [] s m ∧ m.pc = s.pc ∧ m.cond = s.cond ∧ sameRun s m ∧
      m.out = s.out := by
  obtain ⟨hword, heffect, -, hregs, hpc, hcond, hrun, hout, -⟩ := memReadPollsAtKeyboardStatus s a
  rw [h] at hword heffect hregs hpc hcond hrun hout
  exact ⟨heffect, hword, hregs, hpc, hcond, hrun, hout⟩

theorem sameRegsBut_trans_nil {ds : List Reg} {s m t : State} (h₁ : sameRegsBut [] s m) (h₂ : sameRegsBut ds m t) :
    sameRegsBut ds s t :=
  fun i hi => (h₂ i hi).trans (h₁ i List.not_mem_nil)

theorem sameRun_trans {s m t : State} (h₁ : sameRun s m) (h₂ : sameRun m t) : sameRun s t :=
  ⟨h₂.1.trans h₁.1, h₂.2.trans h₁.2⟩

/-! ## The loads (R101 to R104) -/

/-- Settles O43: `exec` loads from the sum of the incremented PC and the sign-extended offset. -/
theorem loadPcRelative : Obligations.LoadPcRelative :=
  ⟨fun _ hop => decode_of_opcode_ld hop, fun _ _ _ => completes_of_exec_eq_loadInto rfl⟩

theorem exec_ldi {dr : Reg} {off9 : BitVec 9} {s m : State} {ptr : Word}
    (h : memRead s (pcRelative9 s off9) = (ptr, m)) : exec (.ldi dr off9) s = .next (loadInto dr ptr m) := by
  change Host.Outcome.next (loadInto dr (memRead s (pcRelative9 s off9)).1 (memRead s (pcRelative9 s off9)).2) = _
  rw [h]

/-- Settles O44: the pointer read leaves `m`, the load of `exec_ldi` starts there, and the two frames compose. -/
theorem loadIndirect : Obligations.LoadIndirect := by
  refine ⟨fun _ hop => decode_of_opcode_ldi hop, fun dr off9 s m ptr hptr => ?_⟩
  obtain ⟨heffect, hword, hregs, hpc, -, hrun, hout⟩ := effect_of_memRead_eq hptr
  obtain ⟨t, hexec, -, hdata, heffect', hcond, hpc', hregs', hrun', hout'⟩ :=
    completes_of_exec_eq_loadInto (exec_ldi (dr := dr) hptr)
  exact ⟨t, hexec, heffect, hword, heffect', hdata, hcond, hpc'.trans hpc, sameRegsBut_trans_nil hregs hregs',
    sameRun_trans hrun hrun', hout'.trans hout⟩

/-- Settles O45: `exec` forms the address from the base register before the load writes DR. -/
theorem loadBaseOffset : Obligations.LoadBaseOffset :=
  ⟨fun _ hop => decode_of_opcode_ldr hop, fun _ _ _ _ => completes_of_exec_eq_loadInto rfl⟩

/-- Settles O46: `exec` defines DR with the address itself, so the effect is that of an operate instruction. -/
theorem loadEffectiveAddress : Obligations.LoadEffectiveAddress :=
  ⟨fun _ hop => decode_of_opcode_lea hop, fun _ _ _ => completes_of_exec_eq_defineReg rfl⟩

/-! ## The stores (R105 to R107) -/

/-- Settles O47: `exec` stores at the sum of the incremented PC and the sign-extended offset. -/
theorem storePcRelative : Obligations.StorePcRelative :=
  ⟨fun _ hop => decode_of_opcode_st hop, fun _ _ _ => completes_of_exec_eq_memWrite rfl⟩

theorem exec_sti {sr : Reg} {off9 : BitVec 9} {s m : State} {ptr : Word}
    (h : memRead s (pcRelative9 s off9) = (ptr, m)) : exec (.sti sr off9) s = .next (memWrite m ptr (m.reg sr)) := by
  change Host.Outcome.next (memWrite (memRead s (pcRelative9 s off9)).2 (memRead s (pcRelative9 s off9)).1
    ((memRead s (pcRelative9 s off9)).2.reg sr)) = _
  rw [h]

/-- Settles O48: the pointer read leaves `m`, with SR as it was, and the plain store of `exec_sti` is made there. -/
theorem storeIndirect : Obligations.StoreIndirect := by
  refine ⟨fun _ hop => decode_of_opcode_sti hop, fun sr off9 s m ptr hptr => ?_⟩
  obtain ⟨heffect, hword, hregs, hpc, hcond, hrun, hout⟩ := effect_of_memRead_eq hptr
  obtain ⟨t, hexec, hstored, hmem, hpc', hcond', hregs', hrun', hkbd, hout'⟩ :=
    completes_of_exec_eq_memWrite (exec_sti (sr := sr) hptr)
  have hsr : t.memWord ptr = s.reg sr := hstored.trans (hregs sr List.not_mem_nil)
  exact ⟨t, hexec, heffect, hword, hsr, hmem, hkbd, hpc'.trans hpc, hcond'.trans hcond,
    sameRegsBut_trans_nil hregs hregs', sameRun_trans hrun hrun', hout'.trans hout⟩

/-- Settles O49: `exec` stores at the sum of the base register and the sign-extended offset. -/
theorem storeBaseOffset : Obligations.StoreBaseOffset :=
  ⟨fun _ hop => decode_of_opcode_str hop, fun _ _ _ _ => completes_of_exec_eq_memWrite rfl⟩

end Sys2Proof.Machine
end

section
/-! PROOFS. OUT and the reserved opcodes (43_trap_reserved.md R122, R128, R129): the decoder on opcodes 0x8, 0xD and 0xF, and
the effect that the reserved opcodes share, the exception. -/

namespace Sys2Proof

/-! ## The decoder on TRAP, RTI and RES (R65) -/

theorem decode_of_opcode_trap {w : Word} (h : w.extractLsb' 12 4 = 0xF#4) :
    decode w = decodeTrap (w.extractLsb' 0 8) := by
  rw [decode, fieldOpcode, h]
  rfl

theorem decode_of_opcode_rti {w : Word} (h : w.extractLsb' 12 4 = 0x8#4) : decode w = .rti := by
  rw [decode, fieldOpcode, h]
  rfl

theorem decode_of_opcode_res {w : Word} (h : w.extractLsb' 12 4 = 0xD#4) : decode w = .res := by
  rw [decode, fieldOpcode, h]
  rfl

theorem decode_of_trap_out {w : Word} (hop : w.extractLsb' 12 4 = 0xF#4) (hvec : w.extractLsb' 0 8 = 0x21#8) :
    decode w = .trapOut := by
  rw [decode_of_opcode_trap hop, hvec]
  rfl

end Sys2Proof

namespace Sys2Proof.Machine

/-! ## OUT (R122) -/

/-- OUT in terms of the state it starts in: the linkage leaves R0 alone, so the byte is that of the old R0. -/
theorem exec_trapOut (s : State) : exec .trapOut s = .next (conOut (link s) [lowByte (s.reg 0)]) := by
  change Host.Outcome.next (conOut (link s) [lowByte ((link s).reg 0)]) = _
  rw [link_reg_zero]

/-- Settles O51: `exec_trapOut` appends one byte after the linkage, and the rest of the frame is the linkage's. -/
theorem trapOutWritesLowByte : Obligations.TrapOutWritesLowByte := by
  refine ⟨fun _ hop hvec => decode_of_trap_out hop hvec, fun s => ?_⟩
  obtain ⟨hregs, hmem, hrun, hkbd, -⟩ := changesOnlyRegs_link s
  exact ⟨_, exec_trapOut s, conOut_out _ _, link_reg_seven s, hkbd, link_pc s, link_cond s, hregs, hmem, hrun⟩

/-! ## The reserved opcodes (R128, R129) -/

/-- R141 with its frame: an instruction that ends by raising InvalidInstruction in `m` completes ABORTED with the record, and
changes nothing else of `m`. For RTI and RES `m` is the state they start in. -/
theorem completes_of_exec_eq_raiseInvalid {i : Instr} {s m : State} {c : AbortCause} {o : BitVec 4} {a : Word}
    (h : exec i s = .next (raiseInvalid m c o a)) : ∃ t, exec i s = .next t ∧
      t.status = .aborted ∧ t.abort = some ⟨c, o, a⟩ ∧ t.pc = m.pc ∧ t.cond = m.cond ∧
      sameRegsBut [] m t ∧ sameMemory m t ∧ sameDevices m t :=
  ⟨_, h, raiseInvalid_status m c o a, raiseInvalid_abort m c o a, raiseInvalid_pc m c o a, raiseInvalid_cond m c o a,
    fun i _ => raiseInvalid_reg m c o a i, raiseInvalid_memWord m c o a,
    ⟨raiseInvalid_kbd m c o a, raiseInvalid_out m c o a⟩⟩

/-- Settles O58: `exec` raises the exception with cause RTI, and does nothing before it. -/
theorem rtiAborts : Obligations.RtiAborts :=
  ⟨fun _ hop => decode_of_opcode_rti hop, fun _ => completes_of_exec_eq_raiseInvalid rfl⟩

/-- Settles O59: `exec` raises the exception with cause RES, and does nothing before it. -/
theorem resAborts : Obligations.ResAborts :=
  ⟨fun _ hop => decode_of_opcode_res hop, fun _ => completes_of_exec_eq_raiseInvalid rfl⟩

end Sys2Proof.Machine
end

section
/-! PROOFS. The decoder against the encoder (30_encoding.md R60 to R72): the case split on the sixteen opcodes, the trap
vectors, the fields of an encoded instruction, and the instruction they give back. -/

namespace Sys2Proof

/-! ## The sixteen opcodes -/

theorem Opcode.numeral_ofNumeral : ∀ n : BitVec 4, (Opcode.ofNumeral n).numeral = n := by decide

theorem Opcode.ofNumeral_numeral : ∀ op : Opcode, Opcode.ofNumeral op.numeral = op
  | .br | .add | .ld | .st | .jsr | .and | .ldr | .str | .rti | .not | .ldi | .sti | .jmp | .res | .lea | .trap => rfl

/-- The case split on a word's opcode: each case then has the hypothesis of its `decode_of_opcode_…`. -/
theorem exists_opcode (w : Word) : ∃ op : Opcode, w.extractLsb' 12 4 = op.numeral :=
  ⟨Opcode.ofNumeral (w.extractLsb' 12 4), (Opcode.numeral_ofNumeral _).symm⟩

/-! ## The trap vectors (R65) -/

theorem namedVector_iff (v : Byte) : namedVector v = true ↔ 0x20 ≤ v.toNat ∧ v.toNat ≤ 0x25 := by
  simp [namedVector, BitVec.le_def]

theorem decodeTrap_of_not_named {v : Byte} (h : namedVector v = false) : decodeTrap v = .trapUnrecognised v := by
  have hne : ∀ n : Byte, namedVector n = true → v ≠ n := fun n hn e => by simp [e, hn] at h
  rw [decodeTrap, if_neg (hne _ rfl), if_neg (hne _ rfl), if_neg (hne _ rfl), if_neg (hne _ rfl), if_neg (hne _ rfl),
    if_neg (hne _ rfl)]

/-- The six named vectors, one by one. -/
theorem namedVector_cases {v : Byte} (h : namedVector v = true) :
    v = 0x20 ∨ v = 0x21 ∨ v = 0x22 ∨ v = 0x23 ∨ v = 0x24 ∨ v = 0x25 := by
  rw [namedVector_iff] at h
  bv_omega

/-! ## The fields of an encoded instruction (R62, R63) -/

theorem regBits_toFin (v : BitVec 3) : regBits v.toFin = v := rfl
theorem toFin_regBits (r : Reg) : (regBits r).toFin = r := rfl

theorem fields_encodePcrel (op : Opcode) (r : Reg) (off9 : BitVec 9) :
    fieldDR (encodePcrel op r off9) = r ∧ fieldPCoffset9 (encodePcrel op r off9) = off9 := by
  simp only [fieldDR, fieldPCoffset9, encodePcrel, BitVec.extractLsb'_append_eq_ite]
  simp [toFin_regBits]

theorem fields_encodeBaseoff (op : Opcode) (r base : Reg) (off6 : BitVec 6) :
    fieldDR (encodeBaseoff op r base off6) = r ∧ fieldSR1 (encodeBaseoff op r base off6) = base ∧
      fieldOffset6 (encodeBaseoff op r base off6) = off6 := by
  simp only [fieldDR, fieldSR1, fieldOffset6, encodeBaseoff, BitVec.extractLsb'_append_eq_ite]
  simp [toFin_regBits]

theorem fields_encodeRrr (op : Opcode) (dr sr1 sr2 : Reg) :
    fieldImmMode (encodeRrr op dr sr1 sr2) = false ∧ fieldDR (encodeRrr op dr sr1 sr2) = dr ∧
      fieldSR1 (encodeRrr op dr sr1 sr2) = sr1 ∧ fieldSR2 (encodeRrr op dr sr1 sr2) = sr2 := by
  simp only [fieldImmMode, fieldDR, fieldSR1, fieldSR2, encodeRrr, BitVec.extractLsb'_append_eq_ite,
    BitVec.getLsbD_append]
  simp [toFin_regBits]

theorem fields_encodeRri (op : Opcode) (dr sr1 : Reg) (imm5 : BitVec 5) :
    fieldImmMode (encodeRri op dr sr1 imm5) = true ∧ fieldDR (encodeRri op dr sr1 imm5) = dr ∧
      fieldSR1 (encodeRri op dr sr1 imm5) = sr1 ∧ fieldImm5 (encodeRri op dr sr1 imm5) = imm5 := by
  simp only [fieldImmMode, fieldDR, fieldSR1, fieldImm5, encodeRri, BitVec.extractLsb'_append_eq_ite,
    BitVec.getLsbD_append]
  simp [toFin_regBits]

theorem fields_encode_not (dr sr : Reg) :
    fieldDR (encode (.not dr sr)) = dr ∧ fieldSR1 (encode (.not dr sr)) = sr := by
  simp only [fieldDR, fieldSR1, encode, BitVec.extractLsb'_append_eq_ite]
  simp [toFin_regBits]

theorem fields_encode_br (n z p : Bool) (off9 : BitVec 9) :
    (encode (.br n z p off9)).getLsbD 11 = n ∧ (encode (.br n z p off9)).getLsbD 10 = z ∧
      (encode (.br n z p off9)).getLsbD 9 = p ∧ fieldPCoffset9 (encode (.br n z p off9)) = off9 := by
  simp only [fieldPCoffset9, encode, BitVec.extractLsb'_append_eq_ite, BitVec.getLsbD_append]
  simp

theorem fields_encode_jmp (base : Reg) : fieldSR1 (encode (.jmp base)) = base := by
  simp only [fieldSR1, encode, BitVec.extractLsb'_append_eq_ite]
  simp [toFin_regBits]

theorem fields_encode_jsr (off11 : BitVec 11) :
    fieldJsrMode (encode (.jsr off11)) = true ∧ fieldPCoffset11 (encode (.jsr off11)) = off11 := by
  simp only [fieldJsrMode, fieldPCoffset11, encode, BitVec.extractLsb'_append_eq_ite, BitVec.getLsbD_append]
  simp

theorem fields_encode_jsrr (base : Reg) :
    fieldJsrMode (encode (.jsrr base)) = false ∧ fieldSR1 (encode (.jsrr base)) = base := by
  simp only [fieldJsrMode, fieldSR1, encode, BitVec.extractLsb'_append_eq_ite, BitVec.getLsbD_append]
  simp [toFin_regBits]

theorem fields_encodeTrap (v : Byte) :
    (encodeTrap v).extractLsb' 12 4 = 0xF#4 ∧ (encodeTrap v).extractLsb' 0 8 = v := by
  simp only [encodeTrap, Opcode.numeral, BitVec.extractLsb'_append_eq_ite]
  simp

theorem decode_encodeTrap (v : Byte) : decode (encodeTrap v) = decodeTrap v := by
  obtain ⟨hop, hvec⟩ := fields_encodeTrap v
  rw [decode_of_opcode_trap hop, hvec]

/-- R72: decoding the encoding of an instruction gives it back, since its opcode selects its own arm of the decoder and each
field is read where the encoder put it. -/
theorem decode_encode {i : Instr} (hwf : i.wellFormed = true) : decode (encode i) = i := by
  cases i with
  | addReg dr sr1 sr2 =>
    obtain ⟨hmode, hdr, hsr1, hsr2⟩ := fields_encodeRrr .add dr sr1 sr2
    rw [decode_of_opcode_add (Laws.EncodesOpcode.addReg dr sr1 sr2), encode, hmode, hdr, hsr1, hsr2]
    rfl
  | addImm dr sr1 imm5 =>
    obtain ⟨hmode, hdr, hsr1, himm⟩ := fields_encodeRri .add dr sr1 imm5
    rw [decode_of_opcode_add (Laws.EncodesOpcode.addImm dr sr1 imm5), encode, hmode, hdr, hsr1, himm]
    rfl
  | andReg dr sr1 sr2 =>
    obtain ⟨hmode, hdr, hsr1, hsr2⟩ := fields_encodeRrr .and dr sr1 sr2
    rw [decode_of_opcode_and (Laws.EncodesOpcode.andReg dr sr1 sr2), encode, hmode, hdr, hsr1, hsr2]
    rfl
  | andImm dr sr1 imm5 =>
    obtain ⟨hmode, hdr, hsr1, himm⟩ := fields_encodeRri .and dr sr1 imm5
    rw [decode_of_opcode_and (Laws.EncodesOpcode.andImm dr sr1 imm5), encode, hmode, hdr, hsr1, himm]
    rfl
  | not dr sr =>
    obtain ⟨hdr, hsr⟩ := fields_encode_not dr sr
    rw [decode_of_opcode_not (Laws.EncodesOpcode.not dr sr), hdr, hsr]
  | br n z p off9 =>
    obtain ⟨hn, hz, hp, hoff⟩ := fields_encode_br n z p off9
    rw [decode_of_opcode_br (Laws.EncodesOpcode.br n z p off9), hn, hz, hp, hoff]
  | jmp base => rw [decode_of_opcode_jmp (Laws.EncodesOpcode.jmp base), fields_encode_jmp base]
  | jsr off11 =>
    obtain ⟨hmode, hoff⟩ := fields_encode_jsr off11
    rw [decode_of_opcode_jsr (Laws.EncodesOpcode.jsr off11), hmode, hoff]
    rfl
  | jsrr base =>
    obtain ⟨hmode, hbase⟩ := fields_encode_jsrr base
    rw [decode_of_opcode_jsr (Laws.EncodesOpcode.jsrr base), hmode, hbase]
    rfl
  | ld dr off9 =>
    obtain ⟨hdr, hoff⟩ := fields_encodePcrel .ld dr off9
    rw [decode_of_opcode_ld (Laws.EncodesOpcode.ld dr off9), encode, hdr, hoff]
  | ldi dr off9 =>
    obtain ⟨hdr, hoff⟩ := fields_encodePcrel .ldi dr off9
    rw [decode_of_opcode_ldi (Laws.EncodesOpcode.ldi dr off9), encode, hdr, hoff]
  | ldr dr base off6 =>
    obtain ⟨hdr, hbase, hoff⟩ := fields_encodeBaseoff .ldr dr base off6
    rw [decode_of_opcode_ldr (Laws.EncodesOpcode.ldr dr base off6), encode, hdr, hbase, hoff]
  | lea dr off9 =>
    obtain ⟨hdr, hoff⟩ := fields_encodePcrel .lea dr off9
    rw [decode_of_opcode_lea (Laws.EncodesOpcode.lea dr off9), encode, hdr, hoff]
  | st sr off9 =>
    obtain ⟨hsr, hoff⟩ := fields_encodePcrel .st sr off9
    rw [decode_of_opcode_st (Laws.EncodesOpcode.st sr off9), encode, hsr, hoff]
  | sti sr off9 =>
    obtain ⟨hsr, hoff⟩ := fields_encodePcrel .sti sr off9
    rw [decode_of_opcode_sti (Laws.EncodesOpcode.sti sr off9), encode, hsr, hoff]
  | str sr base off6 =>
    obtain ⟨hsr, hbase, hoff⟩ := fields_encodeBaseoff .str sr base off6
    rw [decode_of_opcode_str (Laws.EncodesOpcode.str sr base off6), encode, hsr, hbase, hoff]
  | trapGetc => exact decode_encodeTrap 0x20
  | trapOut => exact decode_encodeTrap 0x21
  | trapPuts => exact decode_encodeTrap 0x22
  | trapIn => exact decode_encodeTrap 0x23
  | trapPutsp => exact decode_encodeTrap 0x24
  | trapHalt => exact decode_encodeTrap 0x25
  | trapUnrecognised v =>
    have hnot : namedVector v = false := by simpa [Instr.wellFormed] using hwf
    exact (decode_encodeTrap v).trans (decodeTrap_of_not_named hnot)
  | rti => exact decode_of_opcode_rti Laws.EncodesOpcode.rti
  | res => exact decode_of_opcode_res Laws.EncodesOpcode.res

end Sys2Proof
end

section
/-! PROOFS. The encoder on a decoded word (30_encoding.md R70, R72): the canonical word, and the round trip. -/

namespace Sys2Proof

/-! ## The fields of a word, written back (R70) -/

/-- What the encoder writes at the bits of a word that no field covers: ones in NOT, zeros elsewhere (R70). -/
def canonicalFill (w : Word) : Word := if w.extractLsb' 12 4 = 0x9#4 then 0x003F else 0x0000

theorem encodePcrel_fields {w : Word} {op : Opcode} (hop : w.extractLsb' 12 4 = op.numeral) :
    encodePcrel op (fieldDR w) (fieldPCoffset9 w) = w := by
  rw [encodePcrel, fieldDR, fieldPCoffset9, regBits_toFin, ← hop]
  rw [BitVec.extractLsb'_append_extractLsb'_eq_extractLsb' (by decide)]
  exact BitVec.extractLsb'_append_extractLsb' (w := 7) (len := 9)

theorem encodeBaseoff_fields {w : Word} {op : Opcode} (hop : w.extractLsb' 12 4 = op.numeral) :
    encodeBaseoff op (fieldDR w) (fieldSR1 w) (fieldOffset6 w) = w := by
  rw [encodeBaseoff, fieldDR, fieldSR1, fieldOffset6, regBits_toFin, regBits_toFin, ← hop]
  rw [BitVec.extractLsb'_append_extractLsb'_eq_extractLsb' (by decide),
    BitVec.extractLsb'_append_extractLsb'_eq_extractLsb' (by decide)]
  exact BitVec.extractLsb'_append_extractLsb' (w := 10) (len := 6)

theorem encodeRri_fields {w : Word} {op : Opcode} (hop : w.extractLsb' 12 4 = op.numeral)
    (hmode : fieldImmMode w = true) : encodeRri op (fieldDR w) (fieldSR1 w) (fieldImm5 w) = w := by
  have hbit : w.extractLsb' 5 1 = 0b1#1 := by
    apply BitVec.eq_of_getLsbD_eq
    intro i hi
    obtain rfl : i = 0 := by omega
    simpa [fieldImmMode] using hmode
  rw [encodeRri, fieldDR, fieldSR1, fieldImm5, regBits_toFin, regBits_toFin, ← hop, ← hbit]
  rw [BitVec.extractLsb'_append_extractLsb'_eq_extractLsb' (by decide),
    BitVec.extractLsb'_append_extractLsb'_eq_extractLsb' (by decide),
    BitVec.extractLsb'_append_extractLsb'_eq_extractLsb' (by decide)]
  exact BitVec.extractLsb'_append_extractLsb' (w := 11) (len := 5)

theorem encodeRrr_fields {w : Word} {op : Opcode} (hop : w.extractLsb' 12 4 = op.numeral)
    (hmode : fieldImmMode w = false) :
    encodeRrr op (fieldDR w) (fieldSR1 w) (fieldSR2 w) = w &&& ~~~ 0x0018#16 := by
  have hbit : w[5] = false := by simpa [fieldImmMode] using hmode
  rw [encodeRrr, fieldDR, fieldSR1, fieldSR2, regBits_toFin, regBits_toFin, regBits_toFin, ← hop]
  apply BitVec.eq_of_getLsbD_eq
  intro i hi
  simp only [BitVec.getLsbD_append, BitVec.getLsbD_extractLsb', BitVec.getLsbD_and]
  interval_cases i <;> simp [hbit]

theorem encode_br_fields {w : Word} (hop : w.extractLsb' 12 4 = Opcode.numeral .br) :
    encode (.br (w.getLsbD 11) (w.getLsbD 10) (w.getLsbD 9) (fieldPCoffset9 w)) = w := by
  rw [encode, fieldPCoffset9, ← hop]
  apply BitVec.eq_of_getLsbD_eq
  intro i hi
  simp only [BitVec.getLsbD_append, BitVec.getLsbD_extractLsb']
  interval_cases i <;> simp

theorem encode_not_fields {w : Word} (hop : w.extractLsb' 12 4 = Opcode.numeral .not) :
    encode (.not (fieldDR w) (fieldSR1 w)) = w &&& ~~~ 0x003F#16 ||| 0x003F := by
  rw [encode, fieldDR, fieldSR1, regBits_toFin, regBits_toFin, ← hop]
  apply BitVec.eq_of_getLsbD_eq
  intro i hi
  simp only [BitVec.getLsbD_append, BitVec.getLsbD_extractLsb', BitVec.getLsbD_and, BitVec.getLsbD_or]
  interval_cases i <;> simp

theorem encode_jmp_fields {w : Word} (hop : w.extractLsb' 12 4 = Opcode.numeral .jmp) :
    encode (.jmp (fieldSR1 w)) = w &&& ~~~ 0x0E3F#16 := by
  rw [encode, fieldSR1, regBits_toFin, ← hop]
  apply BitVec.eq_of_getLsbD_eq
  intro i hi
  simp only [BitVec.getLsbD_append, BitVec.getLsbD_extractLsb', BitVec.getLsbD_and]
  interval_cases i <;> simp

theorem encode_jsr_fields {w : Word} (hop : w.extractLsb' 12 4 = Opcode.numeral .jsr) (hmode : fieldJsrMode w = true) :
    encode (.jsr (fieldPCoffset11 w)) = w := by
  have hbit : w[11] = true := by simpa [fieldJsrMode] using hmode
  rw [encode, fieldPCoffset11, ← hop]
  apply BitVec.eq_of_getLsbD_eq
  intro i hi
  simp only [BitVec.getLsbD_append, BitVec.getLsbD_extractLsb']
  interval_cases i <;> simp [hbit]

theorem encode_jsrr_fields {w : Word} (hop : w.extractLsb' 12 4 = Opcode.numeral .jsr) (hmode : fieldJsrMode w = false) :
    encode (.jsrr (fieldSR1 w)) = w &&& ~~~ 0x063F#16 := by
  have hbit : w[11] = false := by simpa [fieldJsrMode] using hmode
  rw [encode, fieldSR1, regBits_toFin, ← hop]
  apply BitVec.eq_of_getLsbD_eq
  intro i hi
  simp only [BitVec.getLsbD_append, BitVec.getLsbD_extractLsb', BitVec.getLsbD_and]
  interval_cases i <;> simp [hbit]

theorem encodeTrap_fields {w : Word} (hop : w.extractLsb' 12 4 = Opcode.numeral .trap) :
    encodeTrap (w.extractLsb' 0 8) = w &&& ~~~ 0x0F00#16 := by
  rw [encodeTrap, ← hop]
  apply BitVec.eq_of_getLsbD_eq
  intro i hi
  simp only [BitVec.getLsbD_append, BitVec.getLsbD_extractLsb', BitVec.getLsbD_and]
  interval_cases i <;> simp

theorem opcode_append_zero {w : Word} {n : BitVec 4} (hop : w.extractLsb' 12 4 = n) :
    n ++ 0x000#12 = w &&& ~~~ 0x0FFF#16 := by
  rw [← hop]
  apply BitVec.eq_of_getLsbD_eq
  intro i hi
  simp only [BitVec.getLsbD_append, BitVec.getLsbD_extractLsb', BitVec.getLsbD_and]
  interval_cases i <;> simp

theorem encode_decodeTrap (v : Byte) : encode (decodeTrap v) = encodeTrap v := by
  cases hv : namedVector v with
  | false => rw [decodeTrap_of_not_named hv, encode]
  | true => obtain rfl | rfl | rfl | rfl | rfl | rfl := namedVector_cases hv <;> rfl

theorem and_not_zero_or_zero (w : Word) : w &&& ~~~ 0x0000#16 ||| 0x0000#16 = w := by
  rw [BitVec.or_zero, BitVec.not_zero, BitVec.and_allOnes]

/-- R70: encoding what a word decodes to keeps the bits that fields cover and writes the canonical fill at the others. -/
theorem encode_decode (w : Word) : encode (decode w) = w &&& ~~~ uncoveredBits w ||| canonicalFill w := by
  obtain ⟨op, hop⟩ := exists_opcode w
  rw [uncoveredBits, canonicalFill, fieldOpcode, hop, Opcode.ofNumeral_numeral]
  have hcovered := (and_not_zero_or_zero w).symm
  cases op with
  | br => exact ((congrArg encode (decode_of_opcode_br hop)).trans (encode_br_fields hop)).trans hcovered
  | add =>
    rw [decode_of_opcode_add hop]
    cases hmode : fieldImmMode w with
    | true => exact (encodeRri_fields hop hmode).trans hcovered
    | false => exact (encodeRrr_fields hop hmode).trans BitVec.or_zero.symm
  | and =>
    rw [decode_of_opcode_and hop]
    cases hmode : fieldImmMode w with
    | true => exact (encodeRri_fields hop hmode).trans hcovered
    | false => exact (encodeRrr_fields hop hmode).trans BitVec.or_zero.symm
  | jsr =>
    rw [decode_of_opcode_jsr hop]
    cases hmode : fieldJsrMode w with
    | true => exact (encode_jsr_fields hop hmode).trans hcovered
    | false => exact (encode_jsrr_fields hop hmode).trans BitVec.or_zero.symm
  | not => exact (congrArg encode (decode_of_opcode_not hop)).trans (encode_not_fields hop)
  | jmp => exact ((congrArg encode (decode_of_opcode_jmp hop)).trans (encode_jmp_fields hop)).trans BitVec.or_zero.symm
  | ld => exact ((congrArg encode (decode_of_opcode_ld hop)).trans (encodePcrel_fields hop)).trans hcovered
  | ldi => exact ((congrArg encode (decode_of_opcode_ldi hop)).trans (encodePcrel_fields hop)).trans hcovered
  | lea => exact ((congrArg encode (decode_of_opcode_lea hop)).trans (encodePcrel_fields hop)).trans hcovered
  | st => exact ((congrArg encode (decode_of_opcode_st hop)).trans (encodePcrel_fields hop)).trans hcovered
  | sti => exact ((congrArg encode (decode_of_opcode_sti hop)).trans (encodePcrel_fields hop)).trans hcovered
  | ldr => exact ((congrArg encode (decode_of_opcode_ldr hop)).trans (encodeBaseoff_fields hop)).trans hcovered
  | str => exact ((congrArg encode (decode_of_opcode_str hop)).trans (encodeBaseoff_fields hop)).trans hcovered
  | trap =>
    rw [decode_of_opcode_trap hop, encode_decodeTrap]
    exact (encodeTrap_fields hop).trans BitVec.or_zero.symm
  | rti =>
    exact ((congrArg encode (decode_of_opcode_rti hop)).trans (opcode_append_zero hop)).trans BitVec.or_zero.symm
  | res =>
    exact ((congrArg encode (decode_of_opcode_res hop)).trans (opcode_append_zero hop)).trans BitVec.or_zero.symm

/-- The canonical fill lies at uncovered bits. -/
theorem canonicalFill_uncovered (w : Word) : canonicalFill w &&& uncoveredBits w = canonicalFill w := by
  rw [canonicalFill]
  split
  next hop =>
    have hop : w.extractLsb' 12 4 = Opcode.numeral .not := hop
    rw [uncoveredBits, fieldOpcode, hop, Opcode.ofNumeral_numeral]
    exact BitVec.and_self
  next => exact BitVec.zero_and

/-- A word's bits at a mask are replaced by `v` without effect exactly when they are `v`. -/
theorem and_not_or_eq_self_iff {w u v : Word} (hv : v &&& u = v) : w &&& ~~~ u ||| v = w ↔ w &&& u = v := by
  constructor
  · intro h
    calc w &&& u = (w &&& ~~~ u ||| v) &&& u := by rw [h]
      _ = v &&& u := by
        ext i hi
        simp only [BitVec.getElem_and, BitVec.getElem_or, BitVec.getElem_not]
        cases u[i] <;> simp
      _ = v := hv
  · rintro rfl
    ext i hi
    simp only [BitVec.getElem_and, BitVec.getElem_or, BitVec.getElem_not]
    cases u[i] <;> simp

theorem wellFormed_decodeTrap (v : Byte) : (decodeTrap v).wellFormed = true := by
  cases hv : namedVector v with
  | false => rw [decodeTrap_of_not_named hv, Instr.wellFormed, hv]; rfl
  | true => obtain rfl | rfl | rfl | rfl | rfl | rfl := namedVector_cases hv <;> rfl

theorem wellFormed_decode (w : Word) : (decode w).wellFormed = true := by
  obtain ⟨op, hop⟩ := exists_opcode w
  rw [decode, fieldOpcode, hop, Opcode.ofNumeral_numeral]
  cases op with
  | trap => exact wellFormed_decodeTrap _
  | add => cases fieldImmMode w <;> rfl
  | and => cases fieldImmMode w <;> rfl
  | jsr => cases fieldJsrMode w <;> rfl
  | _ => rfl

/-- Settles O1: `decode_encode` one way; the other way `encode_decode` gives the canonical word, which is the word itself
exactly when its uncovered bits are the canonical fill. -/
theorem decodeEncodeRoundTrip : Obligations.DecodeEncodeRoundTrip := by
  refine ⟨fun _ hwf => decode_encode hwf, fun w => ?_, fun w => decode_encode (wellFormed_decode w)⟩
  rw [encode_decode]
  exact and_not_or_eq_self_iff (canonicalFill_uncovered w)

end Sys2Proof
end

section
/-! PROOFS. The bits that no field covers (30_encoding.md R67). -/

namespace Sys2Proof

theorem extractLsb'_xor_uncovered {w m u : Word} {start len : Nat} (h : u.extractLsb' start len = 0#len) :
    (w ^^^ (m &&& u)).extractLsb' start len = w.extractLsb' start len := by
  rw [BitVec.extractLsb'_xor, BitVec.extractLsb'_and, h, BitVec.and_zero, BitVec.xor_zero]

theorem getLsbD_xor_uncovered {w m u : Word} {i : Nat} (h : u.getLsbD i = false) :
    (w ^^^ (m &&& u)).getLsbD i = w.getLsbD i := by
  rw [BitVec.getLsbD_xor, BitVec.getLsbD_and, h, Bool.and_false, Bool.xor_false]

theorem uncoveredBits_opcode (w : Word) : (uncoveredBits w).extractLsb' 12 4 = 0#4 := by
  rw [uncoveredBits]
  repeat' split
  all_goals rfl

theorem uncoveredBits_of_add {w : Word} (hop : w.extractLsb' 12 4 = Opcode.numeral .add) :
    uncoveredBits w = if fieldImmMode w then 0x0000 else 0x0018 := by
  rw [uncoveredBits, fieldOpcode, hop, Opcode.ofNumeral_numeral]

theorem uncoveredBits_of_and {w : Word} (hop : w.extractLsb' 12 4 = Opcode.numeral .and) :
    uncoveredBits w = if fieldImmMode w then 0x0000 else 0x0018 := by
  rw [uncoveredBits, fieldOpcode, hop, Opcode.ofNumeral_numeral]

theorem uncoveredBits_of_jsr {w : Word} (hop : w.extractLsb' 12 4 = Opcode.numeral .jsr) :
    uncoveredBits w = if fieldJsrMode w then 0x0000 else 0x063F := by
  rw [uncoveredBits, fieldOpcode, hop, Opcode.ofNumeral_numeral]

/-- The mask of uncovered bits depends on covered bits alone: the opcode and, in its own rows, the mode bit. -/
theorem uncoveredBits_xor_uncovered (w m : Word) :
    uncoveredBits (w ^^^ (m &&& uncoveredBits w)) = uncoveredBits w := by
  obtain ⟨op, hop⟩ := exists_opcode w
  have hop' := (extractLsb'_xor_uncovered (m := m) (uncoveredBits_opcode w)).trans hop
  cases op with
  | add =>
    have hmode : fieldImmMode (w ^^^ (m &&& uncoveredBits w)) = fieldImmMode w :=
      getLsbD_xor_uncovered (by rw [uncoveredBits_of_add hop]; split <;> rfl)
    rw [uncoveredBits_of_add hop', hmode, uncoveredBits_of_add hop]
  | and =>
    have hmode : fieldImmMode (w ^^^ (m &&& uncoveredBits w)) = fieldImmMode w :=
      getLsbD_xor_uncovered (by rw [uncoveredBits_of_and hop]; split <;> rfl)
    rw [uncoveredBits_of_and hop', hmode, uncoveredBits_of_and hop]
  | jsr =>
    have hmode : fieldJsrMode (w ^^^ (m &&& uncoveredBits w)) = fieldJsrMode w :=
      getLsbD_xor_uncovered (by rw [uncoveredBits_of_jsr hop]; split <;> rfl)
    rw [uncoveredBits_of_jsr hop', hmode, uncoveredBits_of_jsr hop]
  | _ =>
    conv_lhs => rw [uncoveredBits, fieldOpcode, hop', Opcode.ofNumeral_numeral]
    conv_rhs => rw [uncoveredBits, fieldOpcode, hop, Opcode.ofNumeral_numeral]

theorem xor_and_and_not (w m u : Word) : (w ^^^ (m &&& u)) &&& ~~~ u = w &&& ~~~ u := by
  ext i hi
  simp only [BitVec.getElem_and, BitVec.getElem_xor, BitVec.getElem_not]
  cases u[i] <;> simp

/-- Settles O3: the two words have the same canonical word (`encode_decode`), and a word decodes as its canonical word. -/
theorem uncoveredBitsAreIgnored : Obligations.UncoveredBitsAreIgnored := by
  intro w m
  have hfill : canonicalFill (w ^^^ (m &&& uncoveredBits w)) = canonicalFill w := by
    rw [canonicalFill, canonicalFill, extractLsb'_xor_uncovered (uncoveredBits_opcode w)]
  have hencode : encode (decode (w ^^^ (m &&& uncoveredBits w))) = encode (decode w) := by
    rw [encode_decode, encode_decode, uncoveredBits_xor_uncovered, hfill, xor_and_and_not]
  rw [← decode_encode (wellFormed_decode (w ^^^ (m &&& uncoveredBits w))), hencode, decode_encode (wellFormed_decode w)]

end Sys2Proof
end

section
/-! PROOFS. The rows of the opcode table (30_encoding.md R66, R73): which of them a word matches. -/

namespace Sys2Proof

theorem eq_iff_opcode_rest {x y : Word} :
    x = y ↔ x.extractLsb' 12 4 = y.extractLsb' 12 4 ∧ x.extractLsb' 0 12 = y.extractLsb' 0 12 := by
  refine ⟨fun h => h ▸ ⟨rfl, rfl⟩, fun ⟨hop, hrest⟩ => ?_⟩
  rw [← BitVec.extractLsb'_append_extractLsb' (w := 4) (len := 12) (x := x), hop, hrest]
  exact BitVec.extractLsb'_append_extractLsb' (w := 4) (len := 12)

/-- A row asks for its opcode and, in the twelve bits below, for what its own mask covers there. -/
theorem fits_eq (row : OpcodeRow) (w : Word) : row.fits w =
    ((w.extractLsb' 12 4 &&& row.mask.extractLsb' 12 4 == row.pattern.extractLsb' 12 4) &&
      (w.extractLsb' 0 12 &&& row.mask.extractLsb' 0 12 == row.pattern.extractLsb' 0 12)) := by
  rw [OpcodeRow.fits, Bool.eq_iff_iff, Bool.and_eq_true, beq_iff_eq, beq_iff_eq, beq_iff_eq, eq_iff_opcode_rest,
    BitVec.extractLsb'_and, BitVec.extractLsb'_and]

theorem and_immModeBit (w : Word) : w.extractLsb' 0 12 &&& 0x020#12 = if fieldImmMode w then 0x020 else 0x000 := by
  rw [fieldImmMode]
  apply BitVec.eq_of_getLsbD_eq
  intro i hi
  cases h : w.getLsbD 5 <;> interval_cases i <;> simp_all

theorem and_jsrModeBit (w : Word) : w.extractLsb' 0 12 &&& 0x800#12 = if fieldJsrMode w then 0x800 else 0x000 := by
  rw [fieldJsrMode]
  apply BitVec.eq_of_getLsbD_eq
  intro i hi
  cases h : w.getLsbD 11 <;> interval_cases i <;> simp_all

theorem and_vectorBits (w : Word) : w.extractLsb' 0 12 &&& 0x0FF#12 = 0x0#4 ++ w.extractLsb' 0 8 := by
  apply BitVec.eq_of_getLsbD_eq
  intro i hi
  simp only [BitVec.getLsbD_append, BitVec.getLsbD_extractLsb', BitVec.getLsbD_and]
  interval_cases i <;> simp

/-- The named TRAP rows: the bits under their mask are a vector exactly when the word's vector is. -/
theorem and_vectorBits_beq (w : Word) (v : Byte) :
    (w.extractLsb' 0 12 &&& 0x0FF#12 == 0x0#4 ++ v) = (w.extractLsb' 0 8 == v) := by
  rw [and_vectorBits, Bool.eq_iff_iff, beq_iff_eq, beq_iff_eq, BitVec.append_right_inj]

/-- Which of the 25 rows ask for a given opcode, mode bit of ADD and AND, mode bit of JSR/JSRR, and vector, in the table's
order. -/
def rowsAskingFor (op : BitVec 4) (immMode jsrMode : Bool) (vector : Byte) : List Bool :=
  [op == 0x1 && !immMode, op == 0x1 && immMode, op == 0x5 && !immMode, op == 0x5 && immMode, op == 0x9, op == 0x0,
   op == 0xC, op == 0x4 && jsrMode, op == 0x4 && !jsrMode, op == 0x2, op == 0xA, op == 0x6, op == 0xE, op == 0x3,
   op == 0xB, op == 0x7, op == 0xF && vector == 0x20, op == 0xF && vector == 0x21, op == 0xF && vector == 0x22,
   op == 0xF && vector == 0x23, op == 0xF && vector == 0x24, op == 0xF && vector == 0x25, op == 0xF, op == 0x8, op == 0xD]

theorem map_fits_opcodeRows (w : Word) : opcodeRows.map (fun row => row.fits w) =
    rowsAskingFor (w.extractLsb' 12 4) (fieldImmMode w) (fieldJsrMode w) (w.extractLsb' 0 8) := by
  have hop : w.extractLsb' 12 4 &&& 0xF#4 = w.extractLsb' 12 4 := BitVec.and_allOnes
  have himm := and_immModeBit w
  have hjsr := and_jsrModeBit w
  have hgetc : (w.extractLsb' 0 12 &&& 0x0FF#12 == 0x020#12) = _ := and_vectorBits_beq w 0x20
  have hout : (w.extractLsb' 0 12 &&& 0x0FF#12 == 0x021#12) = _ := and_vectorBits_beq w 0x21
  have hputs : (w.extractLsb' 0 12 &&& 0x0FF#12 == 0x022#12) = _ := and_vectorBits_beq w 0x22
  have hin : (w.extractLsb' 0 12 &&& 0x0FF#12 == 0x023#12) = _ := and_vectorBits_beq w 0x23
  have hputsp : (w.extractLsb' 0 12 &&& 0x0FF#12 == 0x024#12) = _ := and_vectorBits_beq w 0x24
  have hhalt : (w.extractLsb' 0 12 &&& 0x0FF#12 == 0x025#12) = _ := and_vectorBits_beq w 0x25
  cases hi : fieldImmMode w <;> cases hj : fieldJsrMode w <;>
    simp [rowsAskingFor, opcodeRows, opcodeRowsPlain, opcodeRowsTrap, fits_eq, hop, himm, hjsr, hi, hj, hgetc, hout,
      hputs, hin, hputsp, hhalt]

/-- What R66 and R73 say of one word: the first row it matches is that of `i`, and it matches `n` rows. -/
def SelectsRow (w : Word) (i : Instr) (n : Nat) : Prop :=
  opcodeRows.findIdx? (fun row => row.fits w) = some i.rowIndex ∧
    (opcodeRows.filter (fun row => row.fits w)).length = n

theorem selectsRow_iff {w : Word} {i : Instr} {n : Nat} : SelectsRow w i n ↔
    (rowsAskingFor (w.extractLsb' 12 4) (fieldImmMode w) (fieldJsrMode w) (w.extractLsb' 0 8)).findIdx? id =
      some i.rowIndex ∧
    (rowsAskingFor (w.extractLsb' 12 4) (fieldImmMode w) (fieldJsrMode w) (w.extractLsb' 0 8)).countP id = n := by
  rw [← map_fits_opcodeRows, List.findIdx?_map, List.countP_map, List.countP_eq_length_filter]
  rfl

/-- A TRAP word with a named vector matches the row of its routine and the catch-all, any other one the catch-all alone. -/
theorem selectsRow_trap {w : Word} (hop : w.extractLsb' 12 4 = Opcode.numeral .trap) :
    SelectsRow w (decode w) (if namedVector (w.extractLsb' 0 8) then 2 else 1) := by
  rw [selectsRow_iff, decode_of_opcode_trap hop, hop]
  generalize w.extractLsb' 0 8 = v
  cases hv : namedVector v with
  | true => obtain rfl | rfl | rfl | rfl | rfl | rfl := namedVector_cases hv <;> exact ⟨rfl, rfl⟩
  | false =>
    have hne : ∀ n : Byte, namedVector n = true → (v == n) = false := fun n hn =>
      beq_eq_false_iff_ne.mpr fun e => by simp [← e, hv] at hn
    rw [decodeTrap_of_not_named hv, rowsAskingFor, hne 0x20 rfl, hne 0x21 rfl, hne 0x22 rfl, hne 0x23 rfl,
      hne 0x24 rfl, hne 0x25 rfl]
    exact ⟨rfl, rfl⟩

/-- A word whose opcode is not TRAP's matches one row: opcode, and in ADD, AND and JSR/JSRR the mode bit, tell which. -/
theorem selectsRow_of_ne_trap {w : Word} (hne : w.extractLsb' 12 4 ≠ Opcode.numeral .trap) :
    SelectsRow w (decode w) 1 := by
  obtain ⟨op, hop⟩ := exists_opcode w
  rw [selectsRow_iff, decode, fieldOpcode, hop, Opcode.ofNumeral_numeral]
  cases op with
  | trap => exact absurd hop hne
  | add => cases fieldImmMode w <;> exact ⟨rfl, rfl⟩
  | and => cases fieldImmMode w <;> exact ⟨rfl, rfl⟩
  | jsr => cases fieldJsrMode w <;> exact ⟨rfl, rfl⟩
  | _ => exact ⟨rfl, rfl⟩

/-- Settles O2: `selectsRow_trap` for the TRAP words, `selectsRow_of_ne_trap` for the others. -/
theorem decoderSelectsFirstTableRow : Obligations.DecoderSelectsFirstTableRow := by
  intro w
  refine ⟨wellFormed_decode w, ?_⟩
  by_cases hop : w.extractLsb' 12 4 = 0xF#4
  · simpa only [SelectsRow, hop, true_and, namedVector_iff] using selectsRow_trap hop
  · simpa only [SelectsRow, hop, false_and, if_false] using selectsRow_of_ne_trap hop

/-! ## Which words end the run (R68) -/

open Laws.EncodesOpcode in
theorem opcodeOf_decodeTrap (v : Byte) : opcodeOf (decodeTrap v) = .trap := by
  cases hv : namedVector v with
  | false => rw [decodeTrap_of_not_named hv, opcodeOf]
  | true => obtain rfl | rfl | rfl | rfl | rfl | rfl := namedVector_cases hv <;> rfl

open Laws.EncodesOpcode in
/-- The opcode of what a word decodes to is the word's own (R62). -/
theorem opcodeOf_decode (w : Word) : w.extractLsb' 12 4 = (opcodeOf (decode w)).numeral := by
  obtain ⟨op, hop⟩ := exists_opcode w
  rw [decode, fieldOpcode, hop, Opcode.ofNumeral_numeral]
  cases op with
  | trap => exact congrArg Opcode.numeral (opcodeOf_decodeTrap _).symm
  | add => cases fieldImmMode w <;> rfl
  | and => cases fieldImmMode w <;> rfl
  | jsr => cases fieldJsrMode w <;> rfl
  | _ => rfl

theorem decode_eq_rti_iff {w : Word} : decode w = .rti ↔ w.extractLsb' 12 4 = 0x8#4 :=
  ⟨fun h => (opcodeOf_decode w).trans (by rw [h]; rfl), decode_of_opcode_rti⟩

theorem decode_eq_res_iff {w : Word} : decode w = .res ↔ w.extractLsb' 12 4 = 0xD#4 :=
  ⟨fun h => (opcodeOf_decode w).trans (by rw [h]; rfl), decode_of_opcode_res⟩

theorem decodeTrap_eq_trapUnrecognised_iff {u v : Byte} :
    decodeTrap u = .trapUnrecognised v ↔ u = v ∧ namedVector v = false := by
  constructor
  · intro h
    cases hu : namedVector u with
    | false =>
      rw [decodeTrap_of_not_named hu, Instr.trapUnrecognised.injEq] at h
      exact ⟨h, h ▸ hu⟩
    | true => obtain rfl | rfl | rfl | rfl | rfl | rfl := namedVector_cases hu <;> cases h
  · rintro ⟨rfl, hu⟩
    exact decodeTrap_of_not_named hu

theorem decode_eq_trapUnrecognised_iff {w : Word} {v : Byte} : decode w = .trapUnrecognised v ↔
    w.extractLsb' 12 4 = 0xF#4 ∧ w.extractLsb' 0 8 = v ∧ namedVector v = false := by
  rw [← decodeTrap_eq_trapUnrecognised_iff]
  constructor
  · intro h
    have hop : w.extractLsb' 12 4 = 0xF#4 := (opcodeOf_decode w).trans (by rw [h]; rfl)
    exact ⟨hop, decode_of_opcode_trap hop ▸ h⟩
  · rintro ⟨hop, hv⟩
    rw [decode_of_opcode_trap hop, hv]

theorem namedVector_eq_false_iff (v : Byte) : namedVector v = false ↔ v.toNat < 0x20 ∨ 0x25 < v.toNat := by
  rw [← Bool.not_eq_true, namedVector_iff]
  omega

/-- Settles O4: each word is a closed term, and the decoder computes. -/
theorem specWordsDecode : Obligations.SpecWordsDecode := by
  unfold Obligations.SpecWordsDecode
  decide

end Sys2Proof
end

section
/-! PROOFS. The reads of a string routine (43_trap_reserved.md R123, R125; 70_reset_and_hazards.md R169): the sequence of
reads as data, the loop of PUTS and PUTSP as its first zero word, and the bound on reads. -/

namespace Sys2Proof.Machine

/-! ## What a read commutes with -/

theorem intercept_conOut (s : State) (bs : List Byte) (a : Word) :
    intercept (conOut s bs) a = conOut (intercept s a) bs := by
  have hpoll : pollKbsr (conOut s bs) = conOut (pollKbsr s) bs := by
    rw [pollKbsr, pollKbsr, conOut_kbd]
    split <;> rfl
  rw [intercept, intercept, hpoll]
  split <;> rfl

theorem intercept_setReg (s : State) (i : Reg) (v a : Word) :
    intercept (s.setReg i v) a = (intercept s a).setReg i v := by
  have hpoll : pollKbsr (s.setReg i v) = (pollKbsr s).setReg i v := by
    rw [pollKbsr, pollKbsr, setReg_kbd]
    split <;> rfl
  rw [intercept, intercept, hpoll]
  split <;> rfl

/-! ## The sequence of reads -/

theorem readsFrom_zero (s : State) (a : Word) : readsFrom s a 0 = s := rfl

theorem readsFrom_succ_last (s : State) (a : Word) (n : Nat) :
    readsFrom s a (n + 1) = intercept (readsFrom s a n) (a + BitVec.ofNat 16 n) := rfl

theorem wordRead_eq (s : State) (a : Word) (n : Nat) :
    wordRead s a n = (readsFrom s a (n + 1)).memWord (a + BitVec.ofNat 16 n) := rfl

theorem add_ofNat_add (a : Word) (m n : Nat) :
    a + BitVec.ofNat 16 (m + n) = a + BitVec.ofNat 16 m + BitVec.ofNat 16 n := by
  rw [BitVec.ofNat_add, BitVec.add_assoc]

/-- Reads one after another: `n` more after the first `m`. -/
theorem readsFrom_add (s : State) (a : Word) (m n : Nat) :
    readsFrom s a (m + n) = readsFrom (readsFrom s a m) (a + BitVec.ofNat 16 m) n := by
  induction n with
  | zero => rfl
  | succ n ih => rw [← Nat.add_assoc, readsFrom_succ_last, readsFrom_succ_last, ih, add_ofNat_add]

theorem wordRead_add (s : State) (a : Word) (m n : Nat) :
    wordRead s a (m + n) = wordRead (readsFrom s a m) (a + BitVec.ofNat 16 m) n := by
  rw [wordRead_eq, wordRead_eq, Nat.add_assoc, readsFrom_add, add_ofNat_add]

theorem readsFrom_one (s : State) (a : Word) : readsFrom s a 1 = intercept s a := by
  rw [readsFrom_succ_last, readsFrom_zero, BitVec.add_zero]

theorem wordRead_zero (s : State) (a : Word) : wordRead s a 0 = (intercept s a).memWord a := by
  rw [wordRead_eq, readsFrom_one, BitVec.add_zero]

/-- The same with the first read taken off, as the loop takes it. -/
theorem readsFrom_succ_first (s : State) (a : Word) (n : Nat) :
    readsFrom s a (n + 1) = readsFrom (intercept s a) (a + 1) n := by
  rw [Nat.add_comm, readsFrom_add, readsFrom_one]
  rfl

theorem wordRead_succ_first (s : State) (a : Word) (n : Nat) :
    wordRead s a (n + 1) = wordRead (intercept s a) (a + 1) n := by
  rw [Nat.add_comm, wordRead_add, readsFrom_one]
  rfl

theorem readsFrom_conOut (s : State) (bs : List Byte) (a : Word) (n : Nat) :
    readsFrom (conOut s bs) a n = conOut (readsFrom s a n) bs := by
  induction n with
  | zero => rfl
  | succ n ih => rw [readsFrom_succ_last, readsFrom_succ_last, ih, intercept_conOut]

theorem wordRead_conOut (s : State) (bs : List Byte) (a : Word) (n : Nat) :
    wordRead (conOut s bs) a n = wordRead s a n := by
  rw [wordRead_eq, wordRead_eq, readsFrom_conOut, conOut_memWord]

theorem readsFrom_link (s : State) (a : Word) (n : Nat) : readsFrom (link s) a n = (readsFrom s a n).setReg 7 s.pc := by
  induction n with
  | zero => rfl
  | succ n ih => rw [readsFrom_succ_last, readsFrom_succ_last, ih, intercept_setReg]

theorem wordRead_link (s : State) (a : Word) (n : Nat) : wordRead (link s) a n = wordRead s a n := by
  rw [wordRead_eq, wordRead_eq, readsFrom_link, setReg_memWord]

/-- Reads that do not meet 0xFE00 change nothing. -/
theorem readsFrom_plain {s : State} {a : Word} {n : Nat} (h : ∀ k < n, a + BitVec.ofNat 16 k ≠ kbsrAddr) :
    readsFrom s a n = s := by
  induction n with
  | zero => rfl
  | succ n ih =>
    rw [readsFrom_succ_last, ih fun k hk => h k (Nat.lt_succ_of_lt hk), intercept_of_ne s (h n (Nat.lt_succ_self n))]

theorem wordRead_plain {s : State} {a : Word} {n : Nat} (h : ∀ k ≤ n, a + BitVec.ofNat 16 k ≠ kbsrAddr) :
    wordRead s a n = s.memWord (a + BitVec.ofNat 16 n) := by
  rw [wordRead_eq, readsFrom_plain fun k hk => h k (Nat.le_of_lt_succ hk)]

/-! ## The loop as its first zero word (R123, R125) -/

/-- The bytes that the words before read number `n` send. -/
def bytesRead (bytesOf : Word → List Byte) (s : State) (a : Word) (n : Nat) : List Byte :=
  (List.range n).flatMap fun k => bytesOf (wordRead s a k)

theorem bytesRead_succ (bytesOf : Word → List Byte) (s : State) (a : Word) (n : Nat) :
    bytesRead bytesOf s a (n + 1) =
      bytesOf ((intercept s a).memWord a) ++ bytesRead bytesOf (intercept s a) (a + 1) n := by
  simp only [bytesRead, List.range_succ_eq_map, List.flatMap_cons, List.flatMap_map, wordRead_zero, wordRead_succ_first]

theorem conOut_nil (s : State) : conOut s [] = s := by
  simp only [conOut, List.append_nil]

theorem conOut_conOut (s : State) (bs cs : List Byte) : conOut (conOut s bs) cs = conOut s (bs ++ cs) := by
  simp only [conOut, List.append_assoc]

/-- The loop ends at the first zero word that its reads return, if its fuel lasts that long. -/
theorem printString_eq_some {bytesOf : Word → List Byte} {fuel n : Nat} {a : Word} {s : State} (hfuel : n < fuel)
    (hbefore : ∀ k < n, wordRead s a k ≠ 0x0000) (hend : wordRead s a n = 0x0000) :
    printString bytesOf fuel a s = some (conOut (readsFrom s a (n + 1)) (bytesRead bytesOf s a n)) := by
  induction n generalizing fuel a s with
  | zero =>
    obtain ⟨fuel, rfl⟩ := Nat.exists_eq_add_of_lt hfuel
    rw [wordRead_zero] at hend
    rw [printString_succ, if_pos hend, readsFrom_one]
    exact congrArg some (conOut_nil _).symm
  | succ n ih =>
    obtain ⟨fuel, rfl⟩ : ∃ f, fuel = f + 1 := ⟨fuel - 1, by omega⟩
    have hfirst : (intercept s a).memWord a ≠ 0x0000 := by
      rw [← wordRead_zero]
      exact hbefore 0 (Nat.succ_pos n)
    rw [printString_succ, if_neg hfirst, ih (by omega), readsFrom_conOut, conOut_conOut, readsFrom_succ_first _ _ (n + 1),
      bytesRead_succ]
    · simp only [bytesRead, wordRead_conOut]
    · intro k hk
      rw [wordRead_conOut, ← wordRead_succ_first]
      exact hbefore (k + 1) (Nat.succ_lt_succ hk)
    · rwa [wordRead_conOut, ← wordRead_succ_first]

theorem printString_eq_none_iff {bytesOf : Word → List Byte} {fuel : Nat} {a : Word} {s : State} :
    printString bytesOf fuel a s = none ↔ ∀ k < fuel, wordRead s a k ≠ 0x0000 := by
  constructor
  · intro hnone
    by_contra! hzero
    obtain ⟨hfuel, hend⟩ := Nat.find_spec hzero
    have hbefore : ∀ k < Nat.find hzero, wordRead s a k ≠ 0x0000 := fun k hk h =>
      Nat.find_min hzero hk ⟨hk.trans hfuel, h⟩
    simp [printString_eq_some hfuel hbefore hend] at hnone
  · intro h
    induction fuel generalizing a s with
    | zero => rfl
    | succ fuel ih =>
      have hfirst : (intercept s a).memWord a ≠ 0x0000 := by
        rw [← wordRead_zero]
        exact h 0 (Nat.succ_pos fuel)
      rw [printString_succ, if_neg hfirst]
      refine ih fun k hk => ?_
      rw [wordRead_conOut, ← wordRead_succ_first]
      exact h (k + 1) (Nat.succ_lt_succ hk)

/-! ## The answers of a keyboard (R15) -/

/-- The answer to poll number `j` of a keyboard. -/
def Keyboard.answer (k : Keyboard) : Nat → Option Byte
  | 0 => k.poll.1
  | j + 1 => k.poll.2.answer j

theorem Keyboard.answer_script {l : List (Option Byte)} (tail : KeyTail) {j : Nat} (hj : j < l.length) :
    Keyboard.answer ⟨l, tail⟩ j = l[j] := by
  induction l generalizing j with
  | nil => simp at hj
  | cons a later ih =>
    cases j with
    | zero => rfl
    | succ j => exact ih (Nat.lt_of_succ_lt_succ hj)

theorem Keyboard.answer_stretch {tail : KeyTail} (h : tail ≠ .silent) (j : Nat) :
    Keyboard.answer ⟨[], tail⟩ j = Keyboard.answer ⟨tail.stretch, tail.next⟩ j := by
  cases j with
  | zero => rw [Keyboard.answer, Keyboard.poll_stretch h, Keyboard.answer]
  | succ j => rw [Keyboard.answer, Keyboard.poll_stretch h, Keyboard.answer]

theorem Keyboard.answer_busy {l : List (Option Byte)} (env n : Nat) (h : ∀ a ∈ l, endsString a = false) (j : Nat) :
    endsString (Keyboard.answer ⟨l, .busy env n⟩ j) = false := by
  induction j generalizing l n with
  | zero =>
    obtain ⟨c, later, m, hc, -, hpoll⟩ := Keyboard.poll_busy l env n h
    rw [Keyboard.answer, hpoll]
    simpa [endsString] using hc
  | succ j ih =>
    obtain ⟨c, later, m, -, hlater, hpoll⟩ := Keyboard.poll_busy l env n h
    rw [Keyboard.answer, hpoll]
    exact ih m hlater

/-- R169: a keyboard whose answers go on through its script, the stretch after it and one answer more goes on for ever. The
answer more rules out a silent tail, the stretch a mixed one. -/
theorem Keyboard.answer_goes_on {k : Keyboard}
    (h : ∀ j ≤ k.script.length + k.tail.stretch.length, endsString (k.answer j) = false) (j : Nat) :
    endsString (k.answer j) = false := by
  obtain ⟨l, tail⟩ := k
  induction l generalizing j with
  | cons a later ih =>
    cases j with
    | zero => exact h 0 (Nat.zero_le _)
    | succ j =>
      refine ih j (fun i hi => h (i + 1) ?_)
      simp only [List.length_cons] at hi ⊢
      omega
  | nil =>
    cases tail with
    | silent => exact absurd (h 0 (Nat.zero_le _)) (by decide)
    | mixed env n =>
      obtain ⟨a, ha, hends⟩ := mixedStretch_ends (Config.keyAnswers env n)
      obtain ⟨i, hi, rfl⟩ := List.getElem_of_mem ha
      have hgo := h i (Nat.le_trans hi.le (Nat.le_add_left _ _))
      rw [Keyboard.answer_stretch (by simp), KeyTail.stretch, Keyboard.answer_script _ hi, hends] at hgo
      exact absurd hgo (by decide)
    | busy env n => exact Keyboard.answer_busy env n (by simp) j

/-! ## The reads go round (R169) -/

/-- No word of memory is zero. -/
def NoZeroWord (s : State) : Prop := ∀ a : Word, s.memWord a ≠ 0x0000

theorem zext16_eq_zero_iff (c : Byte) : zext16 c = 0x0000 ↔ c = 0x00 := by
  unfold zext16
  constructor <;> intro h <;> bv_omega

/-- A character ends a string routine exactly when it makes KBDR zero. -/
theorem endsString_some (c : Byte) : endsString (some c) = false ↔ zext16 c ≠ 0x0000 := by
  rw [Ne, zext16_eq_zero_iff]
  simp [endsString]

/-- After a poll no word is zero exactly when none but the keyboard words was, and the answer was a character but 0x00. -/
theorem noZeroWord_pollKbsr_iff (s : State) : NoZeroWord (pollKbsr s) ↔
    (∀ a, a ≠ kbsrAddr → a ≠ kbdrAddr → s.memWord a ≠ 0x0000) ∧ endsString s.kbd.poll.1 = false := by
  have hkbsr := pollKbsr_memWord_kbsr s
  have hkbdr := pollKbsr_memWord_kbdr s
  constructor
  · intro h
    refine ⟨fun a h₁ h₂ => pollKbsr_memWord_other s h₁ h₂ ▸ h a, ?_⟩
    cases hp : s.kbd.poll.1 with
    | none => exact absurd (by simpa [hp] using hkbsr) (h kbsrAddr)
    | some c =>
      rw [endsString_some]
      simpa [hp, hkbdr] using h kbdrAddr
  · rintro ⟨hothers, hgoes⟩ a
    cases hp : s.kbd.poll.1 with
    | none => simp [hp, endsString] at hgoes
    | some c =>
      rw [hp, endsString_some] at hgoes
      by_cases h₁ : a = kbsrAddr
      · rw [h₁, hkbsr, hp, Option.isSome_some, if_pos rfl]
        decide
      · by_cases h₂ : a = kbdrAddr
        · rw [h₂, hkbdr, hp]
          exact hgoes
        · rw [pollKbsr_memWord_other s h₁ h₂]
          exact hothers a h₁ h₂

theorem noZeroWord_iterate_iff (s : State) (j : Nat) : NoZeroWord (pollKbsr^[j + 1] s) ↔
    (∀ a, a ≠ kbsrAddr → a ≠ kbdrAddr → s.memWord a ≠ 0x0000) ∧ endsString (s.kbd.answer j) = false := by
  induction j generalizing s with
  | zero => exact noZeroWord_pollKbsr_iff s
  | succ j ih =>
    rw [Function.iterate_succ_apply, ih, pollKbsr_kbd, Keyboard.answer]
    refine and_congr_left fun _ => forall₃_congr fun a h₁ h₂ => ?_
    rw [pollKbsr_memWord_other s h₁ h₂]

theorem add_ofNat_ne_kbsrAddr {k : Nat} (hk : k < 65535) : kbsrAddr + 1 + BitVec.ofNat 16 k ≠ kbsrAddr := by
  unfold kbsrAddr
  bv_omega

/-- From 0xFE00 on, part of one revolution polls once. -/
theorem readsFrom_kbsrAddr (s : State) {i : Nat} (hi : i < 65536) : readsFrom s kbsrAddr (i + 1) = pollKbsr s := by
  rw [readsFrom_succ_first, intercept_kbsr, readsFrom_plain]
  exact fun k hk => add_ofNat_ne_kbsrAddr (by omega)

theorem add_revolutions (a : Word) (j : Nat) : a + BitVec.ofNat 16 (65536 * j) = a := by
  bv_omega

theorem readsFrom_revolutions (s : State) (j : Nat) : readsFrom s kbsrAddr (65536 * j) = pollKbsr^[j] s := by
  induction j with
  | zero => rfl
  | succ j ih =>
    rw [Nat.mul_succ, readsFrom_add, ih, add_revolutions, readsFrom_kbsrAddr _ (i := 65535) (by decide),
      Function.iterate_succ_apply']

theorem wordRead_revolutions (s : State) (j : Nat) {i : Nat} (hi : i < 65536) :
    wordRead s kbsrAddr (65536 * j + i) = (pollKbsr^[j + 1] s).memWord (kbsrAddr + BitVec.ofNat 16 i) := by
  rw [wordRead_add, readsFrom_revolutions, add_revolutions, wordRead_eq, readsFrom_kbsrAddr _ hi, Function.iterate_succ_apply']

/-- A revolution from 0xFE00 reads every word once. -/
theorem forall_wordRead_revolution_iff (s : State) (j : Nat) :
    (∀ i < 65536, wordRead s kbsrAddr (65536 * j + i) ≠ 0x0000) ↔ NoZeroWord (pollKbsr^[j + 1] s) := by
  constructor
  · intro h a
    have hi := h (a - kbsrAddr).toNat (a - kbsrAddr).isLt
    rw [wordRead_revolutions s j (a - kbsrAddr).isLt, BitVec.ofNat_toNat, BitVec.setWidth_eq] at hi
    rwa [BitVec.add_comm, BitVec.sub_add_cancel] at hi
  · intro h i hi
    rw [wordRead_revolutions s j hi]
    exact h _

/-- How many reads from `a` on come before the first one at 0xFE00. -/
def readsToKbsr (a : Word) : Nat := (kbsrAddr - a).toNat

theorem readsToKbsr_lt (a : Word) : readsToKbsr a < 65536 := (kbsrAddr - a).isLt

theorem add_readsToKbsr (a : Word) : a + BitVec.ofNat 16 (readsToKbsr a) = kbsrAddr := by
  unfold readsToKbsr
  bv_omega

theorem add_ofNat_ne_of_lt_readsToKbsr {a : Word} {k : Nat} (hk : k < readsToKbsr a) :
    a + BitVec.ofNat 16 k ≠ kbsrAddr := by
  unfold readsToKbsr at hk
  bv_omega

theorem wordRead_from_kbsrAddr (s : State) (a : Word) (n : Nat) :
    wordRead s a (readsToKbsr a + n) = wordRead s kbsrAddr n := by
  rw [wordRead_add, readsFrom_plain fun _ hk => add_ofNat_ne_of_lt_readsToKbsr hk, add_readsToKbsr]

/-- R169: if the reads within the bound return no zero word, no read does. Within the bound lie whole revolutions from
0xFE00, one for each answer of script and stretch and one more: they show that no word is zero and that the answers go on. -/
theorem wordRead_ne_zero_of_bound {s : State} {a : Word}
    (h : ∀ n < stringFuel s.kbd, wordRead s a n ≠ 0x0000) (n : Nat) : wordRead s a n ≠ 0x0000 := by
  have hlt := readsToKbsr_lt a
  have hrounds : ∀ j ≤ s.kbd.script.length + s.kbd.tail.stretch.length, NoZeroWord (pollKbsr^[j + 1] s) := by
    intro j hj
    rw [← forall_wordRead_revolution_iff]
    intro i hi
    rw [← wordRead_from_kbsrAddr s a]
    refine h _ ?_
    rw [stringFuel]
    omega
  have hothers := ((noZeroWord_iterate_iff s 0).mp (hrounds 0 (Nat.zero_le _))).1
  have hgoes := Keyboard.answer_goes_on fun j hj => ((noZeroWord_iterate_iff s j).mp (hrounds j hj)).2
  by_cases hn : n < readsToKbsr a
  · exact h n (by rw [stringFuel]; omega)
  · obtain ⟨m, rfl⟩ := Nat.exists_eq_add_of_le (Nat.le_of_not_lt hn)
    have hround := (forall_wordRead_revolution_iff s (m / 65536)).mpr
      ((noZeroWord_iterate_iff s _).mpr ⟨hothers, hgoes (m / 65536)⟩)
    rw [wordRead_from_kbsrAddr, ← Nat.div_add_mod m 65536]
    exact hround (m % 65536) (Nat.mod_lt m (by decide))

end Sys2Proof.Machine
end

section
/-! PROOFS. The frame of an instruction, said once for all of them (10_state.md R21 to R30): what it may do to registers, PC,
COND, output, status, and the form of memory. Each instruction is one of nine shapes. -/

namespace Sys2Proof

/-- The instructions that end the run: HALT and the three that raise InvalidInstruction (R126 to R129). -/
def Instr.endsRun : Instr → Bool
  | .trapHalt => true
  | .trapUnrecognised _ => true
  | .rti => true
  | .res => true
  | _ => false

end Sys2Proof

namespace Sys2Proof.Machine

/-! ## The frame -/

/-- What an instruction may do, as data: the registers it writes, the register COND comes from, whether it links, transfers
control, writes to the console, ends the run. -/
structure Footprint where
  writes : List Reg
  condFrom : Option Reg
  links : Bool
  transfers : Bool
  console : Bool
  ends : Bool

def footprint (i : Instr) : Footprint :=
  ⟨i.writes, i.setsCondFrom, i.links, i.isTransfer, i.writesConsole, i.endsRun⟩

/-- From `s` to `t` nothing happens but what a footprint allows. -/
structure Frame (p : Footprint) (s t : State) : Prop where
  regs : sameRegsBut p.writes s t
  link : p.links = true → t.reg 7 = s.pc
  pc : p.transfers = false → t.pc = s.pc
  condSet : ∀ i, p.condFrom = some i → t.cond = condOf (t.reg i)
  condKept : p.condFrom = none → t.cond = s.cond
  out : ∃ bytes, t.out = s.out ++ bytes ∧ (p.console = false → bytes = [])
  run : p.ends = false → sameRun s t
  memWf : s.mem.wf → t.mem.wf

/-- From `s` to `m` nothing happens but reads and the sending of `bytes`. -/
structure ReadsAndSends (bytes : List Byte) (s m : State) : Prop where
  reg : ∀ i, m.reg i = s.reg i
  pc : m.pc = s.pc
  cond : m.cond = s.cond
  run : sameRun s m
  out : m.out = s.out ++ bytes
  memWf : s.mem.wf → m.mem.wf

theorem readsAndSends_refl (s : State) : ReadsAndSends [] s s :=
  ⟨fun _ => rfl, rfl, rfl, ⟨rfl, rfl⟩, (List.append_nil _).symm, id⟩

theorem readsAndSends_conOut (s : State) (bytes : List Byte) : ReadsAndSends bytes s (conOut s bytes) :=
  ⟨conOut_reg s bytes, rfl, rfl, ⟨rfl, rfl⟩, rfl, id⟩

theorem readsAndSends_intercept (s : State) (a : Word) : ReadsAndSends [] s (intercept s a) :=
  ⟨intercept_reg s a, intercept_pc s a, intercept_cond s a, ⟨intercept_status s a, intercept_abort s a⟩,
    by rw [intercept_out, List.append_nil], fun h => intercept_wf h a⟩

/-- The character that GETC and IN take changes the keyboard alone. -/
theorem readsAndSends_kbd (s : State) (k : Keyboard) : ReadsAndSends [] s { s with kbd := k } :=
  ⟨fun _ => rfl, rfl, rfl, ⟨rfl, rfl⟩, (List.append_nil _).symm, id⟩

theorem ReadsAndSends.trans {bs cs : List Byte} {s m t : State} (h₁ : ReadsAndSends bs s m)
    (h₂ : ReadsAndSends cs m t) : ReadsAndSends (bs ++ cs) s t :=
  ⟨fun i => (h₂.reg i).trans (h₁.reg i), h₂.pc.trans h₁.pc, h₂.cond.trans h₁.cond, sameRun_trans h₁.run h₂.run,
    by rw [h₂.out, h₁.out, List.append_assoc], fun h => h₂.memWf (h₁.memWf h)⟩

theorem readsAndSends_printString {bytesOf : Word → List Byte} {fuel : Nat} {a : Word} {s t : State}
    (h : printString bytesOf fuel a s = some t) : ∃ bytes, ReadsAndSends bytes s t := by
  obtain ⟨hregs, hpc, hcond, hstatus, habort, -, ⟨bytes, hout⟩, hwf⟩ := printString_keeps h
  exact ⟨bytes, fun i => by rw [State.reg, hregs, State.reg], hpc, hcond, ⟨hstatus, habort⟩, hout, hwf⟩

/-! ## The nine shapes -/

/-- Operate instructions, loads and LEA. -/
theorem frame_define {s m : State} (hm : ReadsAndSends [] s m) (dr : Reg) (v : Word) :
    Frame ⟨[dr], some dr, false, false, false, false⟩ s (defineReg m dr v) where
  regs := fun _ hi => (defineReg_reg_ne m v (List.ne_of_not_mem_cons hi)).trans (hm.reg _)
  link := nofun
  pc := fun _ => hm.pc
  condSet := by
    rintro _ ⟨⟩
    rw [defineReg_cond, defineReg_reg_same]
  condKept := nofun
  out := ⟨[], hm.out, fun _ => rfl⟩
  run := fun _ => hm.run
  memWf := hm.memWf

/-- BR and JMP. -/
theorem frame_jump (s : State) (v : Word) : Frame ⟨[], none, false, true, false, false⟩ s (s.setPc v) where
  regs := fun _ _ => rfl
  link := nofun
  pc := nofun
  condSet := nofun
  condKept := fun _ => rfl
  out := ⟨[], (List.append_nil _).symm, fun _ => rfl⟩
  run := fun _ => ⟨rfl, rfl⟩
  memWf := id

/-- JSR and JSRR. -/
theorem frame_linkJump (s : State) (v : Word) :
    Frame ⟨[7], none, true, true, false, false⟩ s ((link s).setPc v) where
  regs := fun _ hi => link_reg_ne s (List.ne_of_not_mem_cons hi)
  link := fun _ => link_reg_seven s
  pc := nofun
  condSet := nofun
  condKept := fun _ => rfl
  out := ⟨[], (List.append_nil _).symm, fun _ => rfl⟩
  run := fun _ => ⟨rfl, rfl⟩
  memWf := id

/-- ST, STI and STR. -/
theorem frame_store {s m : State} (hm : ReadsAndSends [] s m) (a v : Word) :
    Frame ⟨[], none, false, false, false, false⟩ s (memWrite m a v) where
  regs := fun i _ => hm.reg i
  link := nofun
  pc := fun _ => hm.pc
  condSet := nofun
  condKept := fun _ => hm.cond
  out := ⟨[], hm.out, fun _ => rfl⟩
  run := fun _ => hm.run
  memWf := fun h => memWrite_wf (hm.memWf h) a v

/-- GETC, which sends nothing, and IN. -/
theorem frame_receive {s m : State} {bytes : List Byte} {console : Bool} (hm : ReadsAndSends bytes (link s) m)
    (hsent : console = false → bytes = []) (c : Byte) :
    Frame ⟨[7, 0], some 0, true, false, console, false⟩ s (receiveChar m c) where
  regs := by
    intro i hi
    obtain ⟨h7, h0⟩ : i ≠ 7 ∧ i ≠ 0 := by simpa using hi
    rw [receiveChar, defineReg_reg_ne _ _ h0, hm.reg, link_reg_ne s h7]
  link := by
    intro _
    rw [receiveChar, defineReg_reg_ne _ _ (by decide), hm.reg, link_reg_seven]
  pc := fun _ => hm.pc
  condSet := by
    rintro _ ⟨⟩
    rw [receiveChar, defineReg_cond, defineReg_reg_same]
  condKept := nofun
  out := ⟨bytes, hm.out, hsent⟩
  run := fun _ => hm.run
  memWf := hm.memWf

/-- OUT, PUTS and PUTSP. -/
theorem frame_send {s m : State} {bytes : List Byte} (hm : ReadsAndSends bytes (link s) m) :
    Frame ⟨[7], none, true, false, true, false⟩ s m where
  regs := fun i hi => (hm.reg i).trans (link_reg_ne s (List.ne_of_not_mem_cons hi))
  link := fun _ => (hm.reg 7).trans (link_reg_seven s)
  pc := fun _ => hm.pc
  condSet := nofun
  condKept := fun _ => hm.cond
  out := ⟨bytes, hm.out, nofun⟩
  run := fun _ => hm.run
  memWf := hm.memWf

/-- HALT. -/
theorem frame_halt (s : State) (bytes : List Byte) :
    Frame ⟨[7], none, true, false, true, true⟩ s (haltRun (conOut (link s) bytes)) where
  regs := fun _ hi => link_reg_ne s (List.ne_of_not_mem_cons hi)
  link := fun _ => link_reg_seven s
  pc := fun _ => rfl
  condSet := nofun
  condKept := fun _ => rfl
  out := ⟨bytes, rfl, nofun⟩
  run := nofun
  memWf := id

/-- RTI and RES. -/
theorem frame_raise (s : State) (c : AbortCause) (o : BitVec 4) (a : Word) :
    Frame ⟨[], none, false, false, false, true⟩ s (raiseInvalid s c o a) where
  regs := fun _ _ => rfl
  link := nofun
  pc := fun _ => rfl
  condSet := nofun
  condKept := fun _ => rfl
  out := ⟨[], (List.append_nil _).symm, fun _ => rfl⟩
  run := nofun
  memWf := id

/-- TRAP with an unrecognised vector. -/
theorem frame_linkRaise (s : State) (c : AbortCause) (o : BitVec 4) (a : Word) :
    Frame ⟨[7], none, true, false, false, true⟩ s (raiseInvalid (link s) c o a) where
  regs := fun _ hi => link_reg_ne s (List.ne_of_not_mem_cons hi)
  link := fun _ => link_reg_seven s
  pc := fun _ => rfl
  condSet := nofun
  condKept := fun _ => rfl
  out := ⟨[], (List.append_nil _).symm, fun _ => rfl⟩
  run := nofun
  memWf := id

/-! ## Every instruction -/

theorem frame_putString {bytesOf : Word → List Byte} {s t : State} (h : putString bytesOf (link s) = .next t) :
    Frame ⟨[7], none, true, false, true, false⟩ s t := by
  obtain ⟨m, hm, hput⟩ | ⟨-, hput⟩ := putString_cases bytesOf (link s)
  · rw [hput] at h
    cases h
    obtain ⟨bytes, hsent⟩ := readsAndSends_printString hm
    exact frame_send hsent
  · rw [hput] at h
    cases h

/-- An instruction that answers a next state keeps to its footprint. -/
theorem exec_frame {i : Instr} {s t : State} (h : exec i s = .next t) : Frame (footprint i) s t := by
  cases i with
  | addReg dr | addImm dr | andReg dr | andImm dr | not dr | lea dr =>
    cases h
    exact frame_define (readsAndSends_refl s) dr _
  | ld dr off9 => cases h; exact frame_define (readsAndSends_intercept s _) dr _
  | ldr dr base off6 => cases h; exact frame_define (readsAndSends_intercept s _) dr _
  | ldi dr off9 =>
    cases h
    exact frame_define ((readsAndSends_intercept s _).trans (readsAndSends_intercept _ _)) dr _
  | br n z p off9 => rw [exec_br] at h; cases h; exact frame_jump s _
  | jmp base => cases h; exact frame_jump s _
  | jsr off11 => cases h; exact frame_linkJump s _
  | jsrr base => cases h; exact frame_linkJump s _
  | st sr off9 => cases h; exact frame_store (readsAndSends_refl s) _ _
  | str sr base off6 => cases h; exact frame_store (readsAndSends_refl s) _ _
  | sti sr off9 => cases h; exact frame_store (readsAndSends_intercept s _) _ _
  | trapGetc =>
    obtain ⟨c, k, -, hkey⟩ | ⟨-, hkey⟩ := withKey_cases (link s) (fun c t => receiveChar t c)
    · cases hkey.symm.trans h
      exact frame_receive (readsAndSends_kbd (link s) k) (fun _ => rfl) c
    · cases hkey.symm.trans h
  | trapIn =>
    obtain ⟨c, k, -, hkey⟩ | ⟨-, hkey⟩ :=
      withKey_cases (conOut (link s) Config.inPrompt) (fun c t => receiveChar (conOut t [c]) c)
    · cases hkey.symm.trans h
      exact frame_receive (console := true) (((readsAndSends_conOut (link s) _).trans (readsAndSends_kbd _ k)).trans
        (readsAndSends_conOut _ [c])) nofun c
    · cases hkey.symm.trans h
  | trapOut => cases h; exact frame_send (readsAndSends_conOut (link s) _)
  | trapPuts => exact frame_putString h
  | trapPutsp => exact frame_putString h
  | trapHalt => cases h; exact frame_halt s _
  | trapUnrecognised vector => cases h; exact frame_linkRaise s _ _ _
  | rti => cases h; exact frame_raise s _ _ _
  | res => cases h; exact frame_raise s _ _ _

end Sys2Proof.Machine
end

section
/-! PROOFS. The string routines PUTS and PUTSP (43_trap_reserved.md R123, R125; 70_reset_and_hazards.md R169): how they end,
and that they end without asking the keyboard when a zero word comes before 0xFE00. -/

namespace Sys2Proof.Machine

/-! ## The two ways of a string routine -/

theorem putString_eq_next {bytesOf : Word → List Byte} {s : State} {n : Nat}
    (hbefore : ∀ k < n, wordRead s (s.reg 0) k ≠ 0x0000) (hend : wordRead s (s.reg 0) n = 0x0000) :
    putString bytesOf (link s) =
      .next (conOut (readsFrom (link s) (s.reg 0) (n + 1)) (bytesRead bytesOf s (s.reg 0) n)) := by
  have hfuel : n < stringFuel s.kbd := by
    by_contra hge
    exact wordRead_ne_zero_of_bound (fun k hk => hbefore k (by omega)) n hend
  rw [putString, link_kbd, link_reg_zero, printString_eq_some (n := n) hfuel]
  · simp only [bytesRead, wordRead_link]
  · simpa only [wordRead_link] using hbefore
  · rwa [wordRead_link]

theorem putString_eq_fault_iff {bytesOf : Word → List Byte} {s : State} :
    putString bytesOf (link s) = .fault .stringNeverEnds ↔ ∀ n, wordRead s (s.reg 0) n ≠ 0x0000 := by
  have hnone := printString_eq_none_iff (bytesOf := bytesOf) (fuel := stringFuel s.kbd) (a := s.reg 0) (s := link s)
  simp only [wordRead_link] at hnone
  obtain ⟨t, hprint, hput⟩ | ⟨hprint, hput⟩ := putString_cases bytesOf (link s)
  · rw [link_kbd, link_reg_zero] at hprint
    rw [hput]
    refine iff_of_false nofun fun h => ?_
    rw [hnone.mpr fun k _ => h k] at hprint
    cases hprint
  · rw [link_kbd, link_reg_zero] at hprint
    exact iff_of_true hput (wordRead_ne_zero_of_bound (hnone.mp hprint))

/-! ## The frame of the reads -/

theorem readsAndSends_readsFrom (s : State) (a : Word) (n : Nat) : ReadsAndSends [] s (readsFrom s a n) := by
  induction n with
  | zero => exact readsAndSends_refl s
  | succ n ih => exact ih.trans (readsAndSends_intercept _ _)

theorem readsFrom_memWord_other (s : State) (a : Word) (n : Nat) :
    sameMemoryBut [kbsrAddr, kbdrAddr] s (readsFrom s a n) := by
  intro b hb
  have h₁ := List.ne_of_not_mem_cons hb
  have h₂ := List.ne_of_not_mem_cons (List.not_mem_of_not_mem_cons hb)
  induction n with
  | zero => rfl
  | succ n ih => rw [readsFrom_succ_last, intercept_memWord_other _ _ h₁ h₂, ih]

/-- R123, R125: a string routine whose read number `n` is the first to return a zero word completes, with its frame. -/
theorem putString_completes (bytesOf : Word → List Byte) {s : State} {n : Nat}
    (hbefore : ∀ k < n, wordRead s (s.reg 0) k ≠ 0x0000) (hend : wordRead s (s.reg 0) n = 0x0000) :
    ∃ t, putString bytesOf (link s) = .next t ∧
      t.out = s.out ++ bytesRead bytesOf s (s.reg 0) n ∧
      t.reg 7 = s.pc ∧ t.pc = s.pc ∧ t.cond = s.cond ∧ sameRegsBut [7] s t ∧ sameRun s t ∧
      sameMemory (readsFrom s (s.reg 0) (n + 1)) t ∧ t.kbd = (readsFrom s (s.reg 0) (n + 1)).kbd ∧
      sameMemoryBut [kbsrAddr, kbdrAddr] s t ∧
      ((∀ k ≤ n, s.reg 0 + BitVec.ofNat 16 k ≠ kbsrAddr) → sameMemory s t ∧ t.kbd = s.kbd) := by
  have hput := putString_eq_next (bytesOf := bytesOf) hbefore hend
  have hframe := frame_putString hput
  have hsent := (readsAndSends_readsFrom (link s) (s.reg 0) (n + 1)).out
  refine ⟨_, hput, ?_, hframe.link rfl, hframe.pc rfl, hframe.condKept rfl, hframe.regs, hframe.run rfl, ?_, ?_, ?_, ?_⟩
  · rw [conOut_out, hsent, List.append_nil, link_out]
  · intro a
    rw [conOut_memWord, readsFrom_link, setReg_memWord]
  · rw [conOut_kbd, readsFrom_link, setReg_kbd]
  · exact readsFrom_memWord_other (link s) (s.reg 0) (n + 1)
  · intro hplain
    rw [readsFrom_plain fun k hk => hplain k (Nat.le_of_lt_succ hk)]
    exact ⟨fun _ => rfl, rfl⟩

/-! ## A string that ends before 0xFE00 -/

/-- The pointer comes to 0xFE00 before it meets a zero word: what `Instr.readsKbsr` asks of PUTS and PUTSP. -/
def ReachesKbsr (s : State) (a : Word) : Prop :=
  ∃ n : Nat, a + BitVec.ofNat 16 n = kbsrAddr ∧ ∀ k < n, s.memWord (a + BitVec.ofNat 16 k) ≠ 0

/-- The pointer meets its first zero word at read number `n`, before it comes to 0xFE00. -/
def EndsBeforeKbsr (s : State) (a : Word) (n : Nat) : Prop :=
  (∀ k < n, s.memWord (a + BitVec.ofNat 16 k) ≠ 0x0000) ∧ s.memWord (a + BitVec.ofNat 16 n) = 0x0000 ∧
    ∀ k ≤ n, a + BitVec.ofNat 16 k ≠ kbsrAddr

/-- A pointer that does not come to 0xFE00 meets a zero word, since the address space goes round. -/
theorem exists_endsBeforeKbsr {s : State} {a : Word} (h : ¬ ReachesKbsr s a) : ∃ n, EndsBeforeKbsr s a n := by
  have hzero : ∃ n, s.memWord (a + BitVec.ofNat 16 n) = 0x0000 := by
    by_contra! hnone
    exact h ⟨readsToKbsr a, add_readsToKbsr a, fun k _ => hnone k⟩
  have hbefore : ∀ k < Nat.find hzero, s.memWord (a + BitVec.ofNat 16 k) ≠ 0x0000 := fun k hk => Nat.find_min hzero hk
  exact ⟨Nat.find hzero, hbefore, Nat.find_spec hzero, fun k hk hkbsr =>
    h ⟨k, hkbsr, fun j hj => hbefore j (Nat.lt_of_lt_of_le hj hk)⟩⟩

/-- The string routine on such a string: it sends what memory holds and changes nothing else. -/
theorem putString_plain (bytesOf : Word → List Byte) {s : State} {n : Nat} (h : EndsBeforeKbsr s (s.reg 0) n) :
    putString bytesOf (link s) = .next (conOut (link s)
      ((List.range n).flatMap fun k => bytesOf (s.memWord (s.reg 0 + BitVec.ofNat 16 k)))) := by
  obtain ⟨hbefore, hend, hplain⟩ := h
  have hword : ∀ k ≤ n, wordRead s (s.reg 0) k = s.memWord (s.reg 0 + BitVec.ofNat 16 k) := fun k hk =>
    wordRead_plain fun j hj => hplain j (Nat.le_trans hj hk)
  have hput := putString_eq_next (bytesOf := bytesOf)
    (fun k hk => hword k hk.le ▸ hbefore k hk) ((hword n le_rfl).trans hend)
  have hbytes : bytesRead bytesOf s (s.reg 0) n =
      (List.range n).flatMap fun k => bytesOf (s.memWord (s.reg 0 + BitVec.ofNat 16 k)) :=
    List.flatMap_congr fun k hk => by rw [hword k (List.mem_range.mp hk).le]
  rw [hput, hbytes, readsFrom_plain fun k hk => hplain k (Nat.le_of_lt_succ hk)]

/-! ## PUTS and PUTSP -/

/-- The decode clause of every TRAP statement: at a given vector `decodeTrap` computes. -/
theorem decode_of_vector {w : Word} {v : Byte} (hop : w.extractLsb' 12 4 = 0xF#4) (hvec : w.extractLsb' 0 8 = v) :
    decode w = decodeTrap v := by
  rw [decode_of_opcode_trap hop, hvec]

theorem bytesRead_putsBytes (s : State) (a : Word) (n : Nat) :
    bytesRead putsBytes s a n = (List.range n).map fun k => (wordRead s a k).extractLsb' 0 8 :=
  List.map_eq_flatMap.symm

theorem putspBytes_eq (w : Word) : putspBytes w =
    w.extractLsb' 0 8 :: (if w.extractLsb' 8 8 = 0x00#8 then [] else [w.extractLsb' 8 8]) :=
  (apply_ite (List.cons (w.extractLsb' 0 8)) _ _ _).symm

/-- Settles O52: `putString_completes` and `putString_eq_fault_iff` with the bytes of PUTS. -/
theorem trapPutsWritesString : Obligations.TrapPutsWritesString := by
  refine ⟨fun _ hop hvec => decode_of_vector hop hvec, fun s n hbefore hend => ?_,
    fun s hnone => putString_eq_fault_iff.mpr hnone⟩
  rw [← bytesRead_putsBytes]
  exact putString_completes putsBytes hbefore hend

/-- Settles O54: the same with the bytes of PUTSP. -/
theorem trapPutspWritesPackedString : Obligations.TrapPutspWritesPackedString := by
  refine ⟨fun _ hop hvec => decode_of_vector hop hvec, fun s n hbefore hend => ?_,
    fun s hnone => putString_eq_fault_iff.mpr hnone⟩
  simp only [← putspBytes_eq]
  exact putString_completes putspBytes hbefore hend

/-- Settles O55: `putString_eq_fault_iff`, whose one hard half is `wordRead_ne_zero_of_bound`. -/
theorem stringRoutineHangsOnlyWithoutZeroWord : Obligations.StringRoutineHangsOnlyWithoutZeroWord :=
  fun _ => ⟨putString_eq_fault_iff, putString_eq_fault_iff⟩

end Sys2Proof.Machine
end

section
/-! PROOFS. GETC, IN, HALT and the unrecognised vector (43_trap_reserved.md R121, R124, R126, R127). Their frames are
those of `exec_frame`; what is left is the state each of them gives. -/

namespace Sys2Proof

theorem decode_of_trap_unrecognised {w : Word} (hop : w.extractLsb' 12 4 = 0xF#4)
    (hvec : (w.extractLsb' 0 8).toNat < 0x20 ∨ 0x25 < (w.extractLsb' 0 8).toNat) :
    decode w = .trapUnrecognised (w.extractLsb' 0 8) :=
  decode_eq_trapUnrecognised_iff.mpr ⟨hop, rfl, (namedVector_eq_false_iff _).mpr hvec⟩

end Sys2Proof

namespace Sys2Proof.Machine

/-! ## GETC and IN -/

/-- The flags of a character: its bit 15 is 0 (R121). -/
theorem condOf_zext16 (c : Byte) : condOf (zext16 c) = if c = 0x00 then .zero else .pos := by
  have hmsb : (zext16 c).msb = false := by simp [zext16, BitVec.msb_setWidth]
  simp only [condOf, hmsb, zext16_eq_zero_iff, Bool.false_eq_true, if_false]

theorem withKey_eq_next {s : State} {c : Byte} {k : Keyboard} (h : s.kbd.get = some (c, k))
    (f : Byte → State → State) : withKey s f = .next (f c { s with kbd := k }) := by
  rw [withKey, h]

theorem withKey_eq_fault {s : State} (h : s.kbd.get = none) (f : Byte → State → State) :
    withKey s f = .fault .heldForKeyboard := by
  rw [withKey, h]

theorem exec_trapGetc {s : State} {c : Byte} {k : Keyboard} (h : s.kbd.get = some (c, k)) :
    exec .trapGetc s = .next (receiveChar { link s with kbd := k } c) :=
  withKey_eq_next (s := link s) h fun c t => receiveChar t c

theorem exec_trapIn {s : State} {c : Byte} {k : Keyboard} (h : s.kbd.get = some (c, k)) : exec .trapIn s =
    .next (receiveChar (conOut { conOut (link s) Config.inPrompt with kbd := k } [c]) c) :=
  withKey_eq_next (s := conOut (link s) Config.inPrompt) h fun c t => receiveChar (conOut t [c]) c

theorem exec_trapGetc_held {s : State} (h : s.kbd.get = none) : exec .trapGetc s = .fault .heldForKeyboard :=
  withKey_eq_fault (s := link s) h fun c t => receiveChar t c

theorem exec_trapIn_held {s : State} (h : s.kbd.get = none) : exec .trapIn s = .fault .heldForKeyboard :=
  withKey_eq_fault (s := conOut (link s) Config.inPrompt) h fun c t => receiveChar (conOut t [c]) c

theorem receiveChar_reg_zero (s : State) (c : Byte) : (receiveChar s c).reg 0 = c.setWidth 16 :=
  defineReg_reg_same s 0 (zext16 c)

theorem receiveChar_cond (s : State) (c : Byte) : (receiveChar s c).cond = if c = 0x00 then .zero else .pos := by
  rw [receiveChar, defineReg_cond, condOf_zext16]

theorem sameRegsBut_zero_seven {s t : State} (h : sameRegsBut [7, 0] s t) : sameRegsBut [0, 7] s t :=
  fun i hi => h i fun hmem => hi (List.mem_pair.mpr (List.mem_pair.mp hmem).symm)

/-- Settles O50: `exec_trapGetc` gives R0, COND and the keyboard, `exec_frame` the rest. -/
theorem trapGetcReadsACharacter : Obligations.TrapGetcReadsACharacter := by
  refine ⟨fun _ hop hvec => decode_of_vector hop hvec, fun s => ⟨fun c k hget => ?_, exec_trapGetc_held⟩⟩
  have hexec := exec_trapGetc hget
  have hframe := exec_frame hexec
  exact ⟨_, hexec, receiveChar_reg_zero _ c, hframe.link rfl, receiveChar_cond _ c, rfl, rfl, hframe.pc rfl,
    sameRegsBut_zero_seven hframe.regs, fun _ => rfl, hframe.run rfl⟩

/-- Settles O53: `exec_trapIn` gives output, R0, COND and the keyboard, `exec_frame` the rest. -/
theorem trapInPromptsAndEchoes : Obligations.TrapInPromptsAndEchoes := by
  refine ⟨fun _ hop hvec => decode_of_vector hop hvec, fun s => ⟨fun c k hget => ?_, exec_trapIn_held⟩⟩
  have hexec := exec_trapIn hget
  have hframe := exec_frame hexec
  exact ⟨_, hexec, rfl, receiveChar_reg_zero _ c, hframe.link rfl, receiveChar_cond _ c, rfl, hframe.pc rfl,
    sameRegsBut_zero_seven hframe.regs, fun _ => rfl, hframe.run rfl⟩

/-! ## HALT and the unrecognised vector -/

/-- Settles O56: `exec` ends in `haltRun` after the notice; the frame is `exec_frame`'s. -/
theorem trapHaltEndsTheRun : Obligations.TrapHaltEndsTheRun := by
  refine ⟨fun _ hop hvec => decode_of_vector hop hvec, fun s => ?_⟩
  have hexec : exec .trapHalt s = .next (haltRun (conOut (link s) Config.haltNotice)) := rfl
  have hframe := exec_frame hexec
  exact ⟨_, hexec, haltRun_status _, rfl, rfl, hframe.link rfl, hframe.pc rfl, hframe.condKept rfl, rfl, hframe.regs,
    fun _ => rfl⟩

/-- Settles O57: `exec` raises the exception after the linkage, whose frame the exception keeps. -/
theorem trapUnrecognisedAborts : Obligations.TrapUnrecognisedAborts := by
  refine ⟨fun _ hop hvec => decode_of_trap_unrecognised hop hvec, fun v s => ?_⟩
  obtain ⟨t, hexec, hstatus, habort, hpc, hcond, hregs, hmem, hdev⟩ :=
    completes_of_exec_eq_raiseInvalid (i := .trapUnrecognised v) (s := s) (m := link s) rfl
  exact ⟨t, hexec, hstatus, habort, (hregs 7 List.not_mem_nil).trans (link_reg_seven s), hpc, hcond,
    (exec_frame hexec).regs, hmem, hdev⟩

end Sys2Proof.Machine
end

section
/-! PROOFS. The step (70_reset_and_hazards.md R160): what a fetch leaves, how an instruction can end, and the rules about
every step that follow from the frame of an instruction. -/

namespace Sys2Proof.Machine

/-! ## The fetch -/

theorem fetch_fst (s : State) : (fetch s).1 = (memRead s s.pc).1 := rfl

theorem fetch_snd (s : State) : (fetch s).2 = (intercept s s.pc).setPc (s.pc + 1) := by rw [fetch_eq, memRead_snd]

theorem fetch_plain {s : State} (h : s.pc ≠ kbsrAddr) : fetch s = (s.memWord s.pc, s.setPc (s.pc + 1)) := by
  rw [fetch_eq, memRead_plain s h]

theorem fetch_pc (s : State) : (fetch s).2.pc = s.pc + 1 := by rw [fetch_snd, setPc_pc]
theorem fetch_reg (s : State) (i : Reg) : (fetch s).2.reg i = s.reg i := by rw [fetch_snd, setPc_reg, intercept_reg]
theorem fetch_cond (s : State) : (fetch s).2.cond = s.cond := by rw [fetch_snd, setPc_cond, intercept_cond]
theorem fetch_out (s : State) : (fetch s).2.out = s.out := by rw [fetch_snd, setPc_out, intercept_out]
theorem fetch_status (s : State) : (fetch s).2.status = s.status := by rw [fetch_snd, setPc_status, intercept_status]
theorem fetch_abort (s : State) : (fetch s).2.abort = s.abort := by rw [fetch_snd, setPc_abort, intercept_abort]

theorem fetch_memWf {s : State} (h : s.mem.wf) : (fetch s).2.mem.wf := by
  rw [fetch_snd, setPc_mem]
  exact intercept_wf h s.pc

/-- A step that answers a next state keeps to the footprint of its instruction, from the state after the fetch. -/
theorem step_frame {s t : State} (h : step s = .next t) : Frame (footprint (decode (fetch s).1)) (fetch s).2 t :=
  exec_frame (step_next h).2

/-! ## Rules that are fields of the frame -/

/-- Settles O28: the output of the frame. -/
theorem outputOnlyGrows : Obligations.OutputOnlyGrows := by
  intro s t h
  have hout := (step_frame h).out
  rwa [fetch_out] at hout

/-- Settles O29: the PC of the frame. -/
theorem onlyTransfersSetPc : Obligations.OnlyTransfersSetPc :=
  fun s _ h htransfer => ((step_frame h).pc htransfer).trans (fetch_pc s)

/-- Settles O30: the two clauses about COND of the frame. -/
theorem onlyRegisterDefinersSetCond : Obligations.OnlyRegisterDefinersSetCond :=
  fun s _ h => ⟨(step_frame h).condSet, fun hnone => ((step_frame h).condKept hnone).trans (fetch_cond s)⟩

/-- Settles O31: the registers and the linkage of the frame. -/
theorem onlyNamedRegistersAreWritten : Obligations.OnlyNamedRegistersAreWritten :=
  fun s _ h => ⟨fun i hi => ((step_frame h).regs i hi).trans (fetch_reg s i),
    fun hlink => ((step_frame h).link hlink).trans (fetch_pc s)⟩

/-! ## How an instruction can end (R153) -/

theorem endsRun_iff (i : Instr) : i.endsRun = true ↔
    i = .trapHalt ∨ i = .rti ∨ i = .res ∨ ∃ v, i = .trapUnrecognised v := by
  cases i <;> simp [Instr.endsRun]

/-- The status after an instruction that a RUNNING machine runs. -/
theorem exec_status {i : Instr} {s t : State} (hrun : s.status = .running) (h : exec i s = .next t) :
    (t.status = .running ↔ i.endsRun = false) ∧ (t.status = .halted ↔ i = .trapHalt) ∧
      (t.status = .aborted ↔ i = .rti ∨ i = .res ∨ ∃ v, i = .trapUnrecognised v) := by
  cases hends : i.endsRun with
  | false =>
    have hstatus : t.status = .running := ((exec_frame h).run hends).1.trans hrun
    have hnot := mt (endsRun_iff i).mpr (Bool.eq_false_iff.mp hends)
    rw [hstatus]
    exact ⟨iff_of_true rfl rfl, iff_of_false nofun fun h => hnot (.inl h), iff_of_false nofun fun h => hnot (.inr h)⟩
  | true =>
    obtain rfl | rfl | rfl | ⟨v, rfl⟩ := (endsRun_iff i).mp hends <;> cases h <;> simp

/-- What an instruction can answer (R153): a next state, or the hold of GETC and IN, or the hang of PUTS and PUTSP. -/
theorem exec_answers (i : Instr) (s : State) :
    (∃ t, exec i s = .next t) ∨
    (exec i s = .fault .heldForKeyboard ∧ (i = .trapGetc ∨ i = .trapIn) ∧ s.kbd.get = none) ∨
    (exec i s = .fault .stringNeverEnds ∧ (i = .trapPuts ∨ i = .trapPutsp) ∧
      ∀ n, wordRead s (s.reg 0) n ≠ 0x0000) := by
  cases i with
  | trapGetc =>
    cases hget : s.kbd.get with
    | some p => exact .inl ⟨_, exec_trapGetc hget⟩
    | none => exact .inr (.inl ⟨exec_trapGetc_held hget, .inl rfl, rfl⟩)
  | trapIn =>
    cases hget : s.kbd.get with
    | some p => exact .inl ⟨_, exec_trapIn hget⟩
    | none => exact .inr (.inl ⟨exec_trapIn_held hget, .inr rfl, rfl⟩)
  | trapPuts =>
    obtain ⟨t, -, hput⟩ | ⟨-, hput⟩ := putString_cases putsBytes (link s)
    · exact .inl ⟨t, hput⟩
    · exact .inr (.inr ⟨hput, .inl rfl, putString_eq_fault_iff.mp hput⟩)
  | trapPutsp =>
    obtain ⟨t, -, hput⟩ | ⟨-, hput⟩ := putString_cases putspBytes (link s)
    · exact .inl ⟨t, hput⟩
    · exact .inr (.inr ⟨hput, .inr rfl, putString_eq_fault_iff.mp hput⟩)
  | _ => exact .inl ⟨_, rfl⟩

/-- Settles O23: `exec_answers` at the state after the fetch, and `exec_status` for the next states. -/
theorem onlyTheseStepsDoNotGoOn : Obligations.OnlyTheseStepsDoNotGoOn := by
  intro s hrun
  rw [step_running hrun]
  refine ⟨fun r h => ?_, fun t h => ?_, fun f h => ?_⟩
  · obtain ⟨t, ha⟩ | ⟨ha, -⟩ | ⟨ha, -⟩ := exec_answers (decode (fetch s).1) (fetch s).2 <;> cases ha.symm.trans h
  · obtain ⟨hrunning, hhalted, -⟩ := exec_status ((fetch_status s).trans hrun) h
    refine ⟨?_, hhalted⟩
    rw [hrunning, ← Bool.not_eq_true, endsRun_iff]
    simp only [not_or, not_exists, ne_eq]
  · obtain ⟨t, ht⟩ | ⟨hf, hheld⟩ | ⟨hf, hhang⟩ := exec_answers (decode (fetch s).1) (fetch s).2
    · cases ht.symm.trans h
    · cases hf.symm.trans h
      exact .inl ⟨rfl, hheld⟩
    · cases hf.symm.trans h
      exact .inr ⟨rfl, hhang⟩

/-- Settles O5: the instructions that abort (`exec_status`), and the words that decode to them. -/
theorem exactlyThreeClassesAreIllegal : Obligations.ExactlyThreeClassesAreIllegal := by
  intro w s hrun
  have haborts : (∃ t, exec (decode w) s = .next t ∧ t.status = .aborted) ↔
      decode w = .rti ∨ decode w = .res ∨ ∃ v, decode w = .trapUnrecognised v := by
    constructor
    · rintro ⟨t, h, hstatus⟩
      exact (exec_status hrun h).2.2.mp hstatus
    · rintro (h | h | ⟨v, h⟩) <;> rw [h] <;> exact ⟨_, rfl, rfl⟩
  simp only [haborts, decode_eq_rti_iff, decode_eq_res_iff, decode_eq_trapUnrecognised_iff, namedVector_eq_false_iff,
    exists_and_left, exists_eq_left']

end Sys2Proof.Machine
end

section
/-! PROOFS. The invariant (10_state.md section 5) and the end of a run (60_exceptions.md section 1). -/

namespace Sys2Proof.Machine

/-! ## The abort record -/

theorem abortSound_of_none {s : State} (hstatus : s.status ≠ .aborted) (habort : s.abort = none) : abortSound s := by
  rw [abortSound, habort]
  cases hs : s.status with
  | running => trivial
  | halted => trivial
  | aborted => exact hstatus hs

theorem abortSound_of_some {s : State} {r : AbortRecord} (hstatus : s.status = .aborted) (habort : s.abort = some r)
    (hr : r.sound s) : abortSound s := by
  rw [abortSound, hstatus, habort]
  exact hr

theorem abort_eq_none_of_running {s : State} (h : abortSound s) (hrun : s.status = .running) : s.abort = none := by
  rw [abortSound, hrun] at h
  cases ha : s.abort with
  | none => rfl
  | some r => rw [ha] at h; exact h.elim

theorem faultAddr_add_one (s : State) : faultAddr s + 1 = s.pc := BitVec.sub_add_cancel s.pc 1

/-- The record that an instruction leaves, if it leaves one, is sound (R28, R141). -/
theorem exec_abortSound {i : Instr} {s t : State} (hwf : i.wellFormed = true) (hrun : s.status = .running)
    (habort : s.abort = none) (h : exec i s = .next t) : abortSound t := by
  cases hends : i.endsRun with
  | false =>
    obtain ⟨hstatus, habort'⟩ := (exec_frame h).run hends
    exact abortSound_of_none (by rw [hstatus, hrun]; decide) (habort'.trans habort)
  | true =>
    obtain rfl | rfl | rfl | ⟨v, rfl⟩ := (endsRun_iff i).mp hends <;> cases h
    · exact abortSound_of_none nofun habort
    · exact abortSound_of_some rfl rfl ⟨rfl, faultAddr_add_one s, nofun⟩
    · exact abortSound_of_some rfl rfl ⟨rfl, faultAddr_add_one s, nofun⟩
    · refine abortSound_of_some rfl rfl ⟨rfl, faultAddr_add_one s, ?_⟩
      rintro _ ⟨⟩
      have hvec : namedVector v = false := by simpa [Instr.wellFormed] using hwf
      exact ⟨(namedVector_eq_false_iff v).mp hvec, link_reg_seven s⟩

/-! ## The invariant -/

/-- Settles O25: the form of memory by the frame, the abort record by `exec_abortSound`. -/
theorem stepKeepsInvariant : Obligations.StepKeepsInvariant := by
  intro s t hinv h
  obtain ⟨hrun, hexec⟩ := step_next h
  have habort := abort_eq_none_of_running hinv.abortSound hrun
  exact ⟨(exec_frame hexec).memWf (fetch_memWf hinv.memWf),
    exec_abortSound (wellFormed_decode _) ((fetch_status s).trans hrun) ((fetch_abort s).trans habort) hexec⟩

/-- Settles O26: no word is listed, and there is no record while RUNNING. -/
theorem resetMeetsInvariant : Obligations.ResetMeetsInvariant :=
  ⟨reset_mem_wf, abortSound_of_none nofun rfl⟩

theorem inv_launch {memInit : Memory} (hwf : memInit.wf) (images : List Image) (entry : Word) (kbd : Keyboard) :
    Inv (State.launch memInit images entry kbd) :=
  ⟨Memory.wf_loadImages hwf images, abortSound_of_none nofun rfl⟩

theorem run_succ_eq_next {M : Host.Core} {k : Nat} {s t : M.State} (h : M.run (k + 1) s = .next t) :
    ∃ m, M.step s = .next m ∧ M.run k m = .next t := by
  rw [Host.Core.run] at h
  split at h
  next m hm => exact ⟨m, hm, h⟩
  next => cases h
  next => cases h

/-- What every step keeps holds of whatever a run reaches. -/
theorem reaches_keeps {P : State → Prop} (hstep : ∀ s t, P s → step s = .next t → P t) {s t : State} (hs : P s)
    (h : Reaches s t) : P t := by
  obtain ⟨k, hk⟩ := h
  induction k generalizing s with
  | zero => cases hk; exact hs
  | succ k ih =>
    obtain ⟨m, hm, hrest⟩ := run_succ_eq_next (M := core) hk
    exact ih (hstep s m hs hm) hrest

/-- Settles O27: a launch meets the invariant, and every step keeps it. -/
theorem launchedRunsMeetInvariant : Obligations.LaunchedRunsMeetInvariant :=
  fun _ images entry kbd _ hwf h => reaches_keeps stepKeepsInvariant (inv_launch hwf images entry kbd) h

/-! ## The step by stages (R160, R166) -/

/-- Settles O19: the fetch is the read at PC, plain but at 0xFE00. -/
theorem stepRunsTheDecodedInstruction : Obligations.StepRunsTheDecodedInstruction := by
  intro s hrun
  refine ⟨by rw [step_running hrun, fetch_eq], fun hpc i _ hdecode => ?_⟩
  rw [step_running hrun, fetch_plain hpc, hdecode]

/-- Settles O22: `step_halted`, `step_aborted`, and `step_next`, by which only a RUNNING machine has a next state. -/
theorem noStepAfterTheEnd : Obligations.NoStepAfterTheEnd :=
  fun _ => ⟨step_halted, step_aborted, fun hne _ h => hne (step_next h).1⟩

/-! ## The end by an invalid instruction (R141, R142) -/

theorem faultAddr_fetch (s : State) : faultAddr (fetch s).2 = s.pc := by
  rw [faultAddr, fetch_pc, BitVec.add_sub_cancel]

/-- The record of an exception that the instruction just fetched raises: its own opcode and address (R142). -/
theorem raiseInvalid_abort_fetch (s m : State) (c : AbortCause) {o : BitVec 4}
    (hop : (memRead s s.pc).1.extractLsb' 12 4 = o) : (raiseInvalid m c o (faultAddr (fetch s).2)).abort =
      some ⟨c, (memRead s s.pc).1.extractLsb' 12 4, s.pc⟩ := by
  rw [raiseInvalid_abort, faultAddr_fetch, hop]

/-- The effect of a read is told by memory and keyboard alone. -/
theorem readEffect_congr {a : Word} {s m t : State} (h : readEffect a s m) (hmem : t.mem = m.mem) (hkbd : t.kbd = m.kbd) :
    readEffect a s t := by
  simpa only [readEffect, sameMemoryBut, sameMemory, State.memWord, hmem, hkbd] using h

theorem readEffect_fetch (s : State) : readEffect s.pc s (fetch s).2 := by
  rw [fetch_snd]
  exact readEffect_congr (readEffect_intercept s s.pc) rfl rfl

/-- Settles O24: `exec_status` leaves three instructions; each is its exception, after the linkage for TRAP. -/
theorem abortTransition : Obligations.AbortTransition := by
  intro s t hrun h haborted
  have hexec := (step_next h).2
  obtain hi | hi | ⟨v, hi⟩ := (exec_status ((fetch_status s).trans hrun) hexec).2.2.mp haborted
  · have hop : (memRead s s.pc).1.extractLsb' 12 4 = 8#4 := decode_eq_rti_iff.mp hi
    rw [hi] at hexec
    cases hexec
    exact ⟨fetch_pc s, fun i _ => fetch_reg s i, fetch_cond s, fetch_out s, readEffect_congr (readEffect_fetch s) rfl rfl,
      .rti, raiseInvalid_abort_fetch s _ _ hop, hop, fetch_reg s 7⟩
  · have hop : (memRead s s.pc).1.extractLsb' 12 4 = 13#4 := decode_eq_res_iff.mp hi
    rw [hi] at hexec
    cases hexec
    exact ⟨fetch_pc s, fun i _ => fetch_reg s i, fetch_cond s, fetch_out s, readEffect_congr (readEffect_fetch s) rfl rfl,
      .res, raiseInvalid_abort_fetch s _ _ hop, hop, fetch_reg s 7⟩
  · obtain ⟨hop, hvec, -⟩ := decode_eq_trapUnrecognised_iff.mp hi
    rw [fetch_fst] at hop hvec
    rw [hi] at hexec
    cases hexec
    exact ⟨fetch_pc s, fun i hi => (link_reg_ne (fetch s).2 (List.ne_of_not_mem_cons hi)).trans (fetch_reg s i),
      fetch_cond s, fetch_out s, readEffect_congr (readEffect_fetch s) rfl rfl, .trapVector v,
      raiseInvalid_abort_fetch s _ _ hop, hop, hvec.symm, (link_reg_seven (fetch s).2).trans (fetch_pc s)⟩

/-! ## A fetch from 0xFE00 (R55, D6) -/

/-- Settles O20: the word fetched is 0x0000 or 0x8000 by the poll; the first is a BR never taken, the second RTI. -/
theorem fetchFromKeyboardStatusPolls : Obligations.FetchFromKeyboardStatusPolls := by
  intro s hrun hpc
  have hword : (fetch s).1 = if s.kbd.poll.1.isSome then kbsrReady else 0x0000 := by
    rw [fetch_fst, memRead_fst, show s.pc = kbsrAddr from hpc, intercept_kbsr, pollKbsr_memWord_kbsr]
  have hnext : (fetch s).2.pc = 0xFE01 := by rw [fetch_pc, hpc]; rfl
  have heffect : readEffect 0xFE00 s (fetch s).2 := hpc ▸ readEffect_fetch s
  rw [step_running hrun, hword]
  cases hp : s.kbd.poll.1 with
  | none =>
    have hexec : exec (decode 0x0000) (fetch s).2 = .next (fetch s).2 := by
      rw [decode_of_opcode_br (w := 0x0000) rfl, exec_br]
      cases hc : (fetch s).2.cond <;> rfl
    exact ⟨_, hexec, hnext, fun i _ => fetch_reg s i, fetch_cond s, fetch_out s, heffect,
      fun _ => ⟨(fetch_status s).trans hrun, fetch_abort s⟩, fun hne => absurd rfl hne⟩
  | some c =>
    have hexec : exec (decode kbsrReady) (fetch s).2 =
        .next (raiseInvalid (fetch s).2 .rti (Opcode.numeral .rti) (faultAddr (fetch s).2)) := by
      rw [decode_of_opcode_rti (w := kbsrReady) rfl]
      rfl
    refine ⟨_, hexec, hnext, fun i _ => fetch_reg s i, fetch_cond s, fetch_out s,
      readEffect_congr heffect rfl rfl, nofun, fun _ => ⟨rfl, ?_⟩⟩
    rw [raiseInvalid_abort, faultAddr_fetch, hpc]
    rfl

/-! ## A store over the next instruction (R55) -/

/-- Settles O21: the store goes to the incremented PC, where the next fetch reads it back. -/
theorem storeIsSeenByTheNextFetch : Obligations.StoreIsSeenByTheNextFetch := by
  intro s sr hrun hpc hpc' hdecode
  have haddr : pcRelative9 (s.setPc (s.pc + 1)) 0 = s.pc + 1 := BitVec.add_zero (s.pc + 1)
  have hexec : step s = .next (memWrite (s.setPc (s.pc + 1)) (s.pc + 1) (s.reg sr)) := by
    rw [step_running hrun, fetch_plain hpc, hdecode]
    exact congrArg (fun a => Host.Outcome.next (memWrite (s.setPc (s.pc + 1)) a (s.reg sr))) haddr
  have hrun' : (memWrite (s.setPc (s.pc + 1)) (s.pc + 1) (s.reg sr)).status = .running := hrun
  have hplain : (memWrite (s.setPc (s.pc + 1)) (s.pc + 1) (s.reg sr)).pc ≠ kbsrAddr := hpc'
  refine ⟨_, hexec, rfl, memWord_memWrite_same _ _ _, ?_⟩
  rw [step_running hrun', fetch_plain hplain, memWrite_pc, setPc_pc, memWord_memWrite_same, BitVec.add_assoc]
  rfl

end Sys2Proof.Machine
end

section
/-! PROOFS. What a step changes in memory, and what it asks of the keyboard (20_memory.md sections 2 and 3;
70_reset_and_hazards.md section 4). -/

namespace Sys2Proof.Machine

/-! ## Memory (20_memory.md section 3) -/

/-- A read changes a word only at 0xFE00, and then only a keyboard word. -/
theorem intercept_memWord {s : State} {a b : Word} (h : b = kbsrAddr ∨ b = kbdrAddr → a ≠ kbsrAddr) :
    (intercept s a).memWord b = s.memWord b := by
  by_cases hb : b = kbsrAddr ∨ b = kbdrAddr
  · rw [intercept_of_ne s (h hb)]
  · exact intercept_memWord_other s a (fun h₁ => hb (.inl h₁)) fun h₂ => hb (.inr h₂)

/-- The string routines change a keyboard word only if their pointer comes to 0xFE00. -/
theorem putString_memWord {bytesOf : Word → List Byte} {s t : State} {b : Word}
    (h : putString bytesOf (link s) = .next t)
    (hread : b = kbsrAddr ∨ b = kbdrAddr → ¬ ReachesKbsr s (s.reg 0)) : t.memWord b = s.memWord b := by
  by_cases hb : b = kbsrAddr ∨ b = kbdrAddr
  · obtain ⟨n, hn⟩ := exists_endsBeforeKbsr (hread hb)
    rw [putString_plain bytesOf hn] at h
    cases h
    rfl
  · obtain ⟨m, hprint, hput⟩ | ⟨-, hput⟩ := putString_cases bytesOf (link s)
    · cases hput.symm.trans h
      obtain ⟨-, -, -, -, -, hmem, -⟩ := printString_keeps hprint
      exact hmem b (fun h₁ => hb (.inl h₁)) fun h₂ => hb (.inr h₂)
    · cases hput.symm.trans h

theorem ne_of_some_ne {a b : Word} (h : (some a : Option Word) ≠ some b) : b ≠ a := fun e => h (congrArg some e.symm)

/-- An instruction changes no word but the one it stores to and, if it reads 0xFE00, the keyboard words. -/
theorem exec_memWord {i : Instr} {s t : State} {b : Word} (h : exec i s = .next t) (hstore : i.storeAddr s ≠ some b)
    (hread : b = kbsrAddr ∨ b = kbdrAddr → ¬ i.readsKbsr s) : t.memWord b = s.memWord b := by
  cases i with
  | ld dr off9 => cases h; exact intercept_memWord hread
  | ldr dr base off6 => cases h; exact intercept_memWord hread
  | ldi dr off9 =>
    cases (exec_ldi (memRead_eq s _)).symm.trans h
    have hptr : b = kbsrAddr ∨ b = kbdrAddr → pcRelative9 s off9 ≠ kbsrAddr := fun hb e => hread hb (.inl e)
    have hdata : b = kbsrAddr ∨ b = kbdrAddr →
        (intercept s (pcRelative9 s off9)).memWord (pcRelative9 s off9) ≠ kbsrAddr := by
      intro hb e
      rw [intercept_of_ne s (hptr hb)] at e
      exact hread hb (.inr e)
    rw [loadInto_eq, defineReg_memWord, intercept_memWord hdata, intercept_memWord hptr]
  | st sr off9 => cases h; exact memWord_memWrite_ne s _ (ne_of_some_ne hstore)
  | str sr base off6 => cases h; exact memWord_memWrite_ne s _ (ne_of_some_ne hstore)
  | sti sr off9 =>
    cases h
    exact (memWord_memWrite_ne _ _ (ne_of_some_ne hstore)).trans (intercept_memWord hread)
  | br n z p off9 => rw [exec_br] at h; cases h; rfl
  | trapGetc =>
    obtain ⟨c, k, -, hkey⟩ | ⟨-, hkey⟩ := withKey_cases (link s) (fun c t => receiveChar t c) <;>
      cases hkey.symm.trans h
    rfl
  | trapIn =>
    obtain ⟨c, k, -, hkey⟩ | ⟨-, hkey⟩ :=
      withKey_cases (conOut (link s) Config.inPrompt) (fun c t => receiveChar (conOut t [c]) c) <;>
      cases hkey.symm.trans h
    rfl
  | trapPuts => exact putString_memWord h hread
  | trapPutsp => exact putString_memWord h hread
  | _ => cases h; rfl

theorem fetch_memWord {s : State} {b : Word} (h : b = kbsrAddr ∨ b = kbdrAddr → s.pc ≠ kbsrAddr) :
    (fetch s).2.memWord b = s.memWord b := by
  rw [fetch_snd, setPc_memWord]
  exact intercept_memWord h

/-- Settles O32: `exec_memWord` after `fetch_memWord`. -/
theorem onlyStoresAndPollsChangeMemory : Obligations.OnlyStoresAndPollsChangeMemory := by
  intro s t h a hstore hread
  exact (exec_memWord (step_next h).2 hstore fun hb => (hread hb).2).trans (fetch_memWord fun hb => (hread hb).1)

/-! ## The keyboard words (20_memory.md section 2) -/

theorem intercept_memWord_kbdr_of_no_key {s : State} (a : Word) (h : s.kbd.poll.1 = none) :
    (intercept s a).memWord kbdrAddr = s.memWord kbdrAddr := by
  unfold intercept
  split
  · rw [pollKbsr_memWord_kbdr, h]
    rfl
  · rfl

/-- Settles O11: access by access by the laws of the two accessors; step by step it is O32 at 0xFE02. -/
theorem keyboardDataWordIsPlain : Obligations.KeyboardDataWordIsPlain := by
  refine ⟨fun s => memRead_plain s (by decide), fun s a hne => ⟨?_, fun hnone => ?_⟩, fun s a v hne => ?_,
    fun s t h hne => ?_⟩
  · by_contra ha
    exact hne (intercept_memWord fun _ => ha)
  · exact hne (intercept_memWord_kbdr_of_no_key a hnone)
  · by_contra ha
    exact hne (memWord_memWrite_ne s v (Ne.symm ha))
  · by_contra! hno
    obtain ⟨hpc, hstore, hread⟩ := hno
    exact hne (onlyStoresAndPollsChangeMemory s t h 0xFE02 hstore fun _ => ⟨hpc, hread⟩)

/-- What a read of 0xFE00 returns: 0x8000 or 0x0000, by the poll alone. -/
theorem memRead_kbsr_fst (s : State) : (memRead s kbsrAddr).1 = if s.kbd.poll.1.isSome then 0x8000 else 0x0000 := by
  rw [memRead_fst, intercept_kbsr, pollKbsr_memWord_kbsr]
  rfl

theorem memRead_kbsr_kbd (s : State) : (memRead s kbsrAddr).2.kbd = s.kbd.poll.2 := by
  rw [memRead_snd, intercept_kbsr, pollKbsr_kbd]

/-- Settles O10: the value returned depends on the poll alone (`memRead_kbsr_fst`), and a read leaves the polled keyboard. -/
theorem keyboardStatusIsPolledEachRead : Obligations.KeyboardStatusIsPolledEachRead := by
  intro s v
  have hsecond := memRead_kbsr_fst (memRead s kbsrAddr).2
  rw [memRead_kbsr_kbd] at hsecond
  have hkbd : (memRead (memRead s kbsrAddr).2 kbsrAddr).2.kbd = s.kbd.poll.2.poll.2 := by
    rw [memRead_kbsr_kbd (memRead s kbsrAddr).2, memRead_kbsr_kbd]
  have hstored : (memRead (memWrite s 0xFE00 v) kbsrAddr).1 = (memRead s kbsrAddr).1 := by
    rw [memRead_kbsr_fst, memRead_kbsr_fst, memWrite_kbd]
  exact ⟨memRead_kbsr_fst s, hstored, hsecond, hkbd⟩

/-! ## Steps that do not ask the keyboard (70_reset_and_hazards.md section 4) -/

/-- The state with another keyboard. -/
def State.withKbd (s : State) (k : Keyboard) : State := { s with kbd := k }

/-- The instruction answers a next state, leaves the keyboard alone, and answers the same with any other keyboard. -/
def Independent (i : Instr) (s : State) : Prop :=
  ∃ t, exec i s = .next t ∧ t.kbd = s.kbd ∧ ∀ k, exec i (s.withKbd k) = .next (t.withKbd k)

/-- A load from an address that is not 0xFE00, from a state whose keyboard is that of `s`. -/
theorem loadInto_plain (dr : Reg) {a : Word} (h : a ≠ kbsrAddr) (s : State) :
    loadInto dr a s = defineReg s dr (s.memWord a) := by
  rw [loadInto_eq, intercept_of_ne s h]

theorem independent_ld (dr : Reg) {off9 : BitVec 9} {s : State} (h : pcRelative9 s off9 ≠ kbsrAddr) :
    Independent (.ld dr off9) s :=
  ⟨_, congrArg Host.Outcome.next (loadInto_plain dr h s), rfl, fun k =>
    congrArg Host.Outcome.next (loadInto_plain dr h (s.withKbd k))⟩

theorem independent_ldr (dr : Reg) {base : Reg} {off6 : BitVec 6} {s : State} (h : baseOffset s base off6 ≠ kbsrAddr) :
    Independent (.ldr dr base off6) s :=
  ⟨_, congrArg Host.Outcome.next (loadInto_plain dr h s), rfl, fun k =>
    congrArg Host.Outcome.next (loadInto_plain dr h (s.withKbd k))⟩

theorem independent_ldi (dr : Reg) {off9 : BitVec 9} {s : State} (h : pcRelative9 s off9 ≠ kbsrAddr)
    (h' : s.memWord (pcRelative9 s off9) ≠ kbsrAddr) : Independent (.ldi dr off9) s := by
  have hexec (s : State) (h : pcRelative9 s off9 ≠ kbsrAddr) (h' : s.memWord (pcRelative9 s off9) ≠ kbsrAddr) :
      exec (.ldi dr off9) s = .next (defineReg s dr (s.memWord (s.memWord (pcRelative9 s off9)))) := by
    rw [exec_ldi (memRead_plain s h), loadInto_plain dr h']
  exact ⟨_, hexec s h h', rfl, fun k => hexec (s.withKbd k) h h'⟩

theorem independent_sti (sr : Reg) {off9 : BitVec 9} {s : State} (h : pcRelative9 s off9 ≠ kbsrAddr) :
    Independent (.sti sr off9) s :=
  ⟨_, exec_sti (memRead_plain s h), rfl, fun k => exec_sti (memRead_plain (s.withKbd k) h)⟩

theorem independent_putString {i : Instr} {bytesOf : Word → List Byte} {s : State}
    (hi : ∀ s, exec i s = putString bytesOf (link s)) (h : ¬ ReachesKbsr s (s.reg 0)) : Independent i s := by
  obtain ⟨n, hn⟩ := exists_endsBeforeKbsr h
  exact ⟨_, (hi s).trans (putString_plain bytesOf hn), rfl, fun k =>
    (hi (s.withKbd k)).trans (putString_plain (s := s.withKbd k) bytesOf hn)⟩

theorem independent_br (n z p : Bool) (off9 : BitVec 9) (s : State) : Independent (.br n z p off9) s :=
  ⟨_, exec_br n z p off9 s, rfl, fun k => exec_br n z p off9 (s.withKbd k)⟩

theorem exec_independent {i : Instr} {s : State} (h : ¬ i.asksKeyboard s) : Independent i s := by
  obtain ⟨hgetc, hin, hread⟩ : i ≠ .trapGetc ∧ i ≠ .trapIn ∧ ¬ i.readsKbsr s := by
    simpa only [Instr.asksKeyboard, not_or] using h
  cases i with
  | ld dr off9 => exact independent_ld dr hread
  | ldr dr base off6 => exact independent_ldr dr hread
  | ldi dr off9 => exact independent_ldi dr (fun e => hread (.inl e)) fun e => hread (.inr e)
  | sti sr off9 => exact independent_sti sr hread
  | trapPuts => exact independent_putString (bytesOf := putsBytes) (fun _ => rfl) hread
  | trapPutsp => exact independent_putString (bytesOf := putspBytes) (fun _ => rfl) hread
  | trapGetc => exact absurd rfl hgetc
  | trapIn => exact absurd rfl hin
  | br n z p off9 => exact independent_br n z p off9 s
  | _ => exact ⟨_, rfl, rfl, fun _ => rfl⟩

/-- Settles O33: the fetch is plain for every keyboard, and the instruction is independent of it (`exec_independent`). -/
theorem stepIgnoresKeyboardUnlessAsked : Obligations.StepIgnoresKeyboardUnlessAsked := by
  intro s k hpc hasks
  change (∀ t, step s = .next t → t.kbd = s.kbd ∧ step (s.withKbd k) = .next (t.withKbd k)) ∧
    ∀ f, step s = .fault f → step (s.withKbd k) = .fault f
  cases hs : s.status with
  | running =>
    obtain ⟨t, hexec, hkbd, hother⟩ := exec_independent hasks
    have hstep : step s = .next t := by rw [step_running hs, fetch_plain hpc, hexec]
    have hstep' : step (s.withKbd k) = .next (t.withKbd k) := by
      rw [step_running (s := s.withKbd k) hs, fetch_plain (s := s.withKbd k) hpc]
      exact hother k
    rw [hstep, hstep']
    refine ⟨?_, nofun⟩
    rintro _ ⟨⟩
    exact ⟨hkbd, rfl⟩
  | halted =>
    rw [step_halted hs, step_halted (s := s.withKbd k) hs]
    exact ⟨nofun, fun f h => h⟩
  | aborted =>
    rw [step_aborted hs, step_aborted (s := s.withKbd k) hs]
    exact ⟨nofun, fun f h => h⟩

end Sys2Proof.Machine
end

section
/-! PROOFS. Memory as data (20_memory.md section 1), launch and reset (70_reset_and_hazards.md
section 2), a load after a store, and the flags of a value (40_operate.md R86). -/

namespace Sys2Proof.Machine

/-! ## The canonical form -/

theorem Memory.read_of_mem {m : Memory} (h : m.wf) {c : WordCell} (hc : c ∈ m) : m.read c.1 = c.2 := by
  have hsorted := h.1
  clear h
  induction m with
  | nil => simp at hc
  | cons d rest ih =>
    rw [List.pairwise_cons] at hsorted
    obtain rfl | hc := List.mem_cons.mp hc
    · exact if_pos rfl
    · have hne : d.1 ≠ c.1 := Nat.ne_of_lt (hsorted.1 c hc)
      exact (if_neg hne).trans (ih hc hsorted.2)

theorem Memory.mem_of_read_ne {m : Memory} {a : Nat} (h : m.read a ≠ Memory.unlisted) : (a, m.read a) ∈ m := by
  induction m with
  | nil => exact absurd rfl h
  | cons d rest ih =>
    obtain ⟨b, w⟩ := d
    rw [Memory.read] at h ⊢
    split at h
    next hb => rw [if_pos hb, hb]; exact List.mem_cons_self
    next hb => rw [if_neg hb]; exact List.mem_cons_of_mem _ (ih h)

/-- A memory in canonical form lists exactly the words that are not what an unlisted address reads as. -/
theorem Memory.mem_iff_read {m : Memory} (h : m.wf) {c : WordCell} :
    c ∈ m ↔ c.1 < 65536 ∧ c.2 ≠ Memory.unlisted ∧ m.read c.1 = c.2 := by
  constructor
  · exact fun hc => ⟨(h.2 c hc).1, (h.2 c hc).2, Memory.read_of_mem h hc⟩
  · rintro ⟨-, hne, hread⟩
    have hmem := Memory.mem_of_read_ne (m := m) (a := c.1) (by rwa [hread])
    rwa [hread] at hmem

/-- Settles O14: the two lists have the same cells (`Memory.mem_iff_read`), and both are sorted by address. -/
theorem canonicalMemoriesReadingAlikeAreEqual : Obligations.CanonicalMemoriesReadingAlikeAreEqual := by
  intro m₁ m₂ h₁ h₂ hread
  have hcells : ∀ c : WordCell, c ∈ m₁ ↔ c ∈ m₂ := by
    intro c
    rw [Memory.mem_iff_read h₁, Memory.mem_iff_read h₂]
    refine and_congr_right fun hlt => ?_
    have hc := hread (BitVec.ofNat 16 c.1)
    rw [BitVec.toNat_ofNat, Nat.mod_eq_of_lt hlt] at hc
    rw [hc]
  have hnodup : ∀ {m : Memory}, m.wf → m.Nodup := fun h =>
    h.1.imp fun hlt e => Nat.ne_of_lt hlt (congrArg Prod.fst e)
  refine List.Perm.eq_of_pairwise (fun c d _ _ hcd hdc => absurd hcd (Nat.lt_asymm hdc)) h₁.1 h₂.1 ?_
  exact (List.perm_ext_iff_of_nodup (hnodup h₁) (hnodup h₂)).mpr hcells

/-- A canonical memory that reads as `f` below `n`. -/
theorem exists_memory_below (f : Word → Word) (n : Nat) (hn : n ≤ 65536) :
    ∃ m : Memory, m.wf ∧ ∀ a : Word, a.toNat < n → m.read a.toNat = f a := by
  induction n with
  | zero => exact ⟨[], Memory.wf_nil, fun a ha => absurd ha (Nat.not_lt_zero _)⟩
  | succ n ih =>
    obtain ⟨m, hwf, hread⟩ := ih (Nat.le_of_succ_le hn)
    refine ⟨m.write n (f (BitVec.ofNat 16 n)), Memory.wf_write hwf hn _, fun a ha => ?_⟩
    rw [Memory.read_write]
    split
    next hlast => rw [← hlast, BitVec.ofNat_toNat, BitVec.setWidth_eq]
    next hother => exact hread a (by omega)

/-- Settles O15: `exists_memory_below` at the size of the address space. -/
theorem everyMemInitIsAMemory : Obligations.EveryMemInitIsAMemory := by
  intro f
  obtain ⟨m, hwf, hread⟩ := exists_memory_below f 65536 le_rfl
  exact ⟨m, hwf, fun a => hread a a.isLt⟩

/-! ## Images (R162) -/

theorem Memory.read_loadWords (m : Memory) (a : Nat) (words : List Word) {b : Nat} (hb : b < 65536) :
    (m.loadWords a words).read b = ((if a ≤ b then words[b - a]? else none).getD (m.read b)) := by
  induction words generalizing m a with
  | nil => simp [Memory.loadWords]
  | cons w rest ih =>
    rw [Memory.loadWords]
    split
    next ha =>
      rw [ih, Memory.read_write]
      obtain hlt | rfl | hgt := Nat.lt_trichotomy b a
      · rw [if_neg (by omega), if_neg (by omega), if_neg (by omega)]
      · rw [if_neg (by omega), if_pos le_rfl, if_pos rfl, Nat.sub_self]
        rfl
      · obtain ⟨k, rfl⟩ : ∃ k, b = a + 1 + k := ⟨b - (a + 1), by omega⟩
        rw [if_pos (by omega), if_neg (by omega), if_pos (by omega), Nat.add_sub_cancel_left,
          show a + 1 + k - a = k + 1 by omega, List.getElem?_cons_succ]
    next ha =>
      rw [if_neg (by omega)]
      rfl

theorem Memory.read_loadWords_image (m : Memory) (image : Image) (a : Word) :
    (m.loadWords image.origin.toNat image.words).read a.toNat = (image.wordAt a).getD (m.read a.toNat) :=
  Memory.read_loadWords m _ _ a.isLt

theorem Memory.read_loadImages (m : Memory) (images : List Image) (a : Word) : (m.loadImages images).read a.toNat =
    (images.reverse.findSome? fun image => image.wordAt a).getD (m.read a.toNat) := by
  induction images generalizing m with
  | nil => rfl
  | cons image rest ih =>
    rw [Memory.loadImages, ih, Memory.read_loadWords_image, List.reverse_cons, List.findSome?_append,
      List.findSome?_singleton]
    cases rest.reverse.findSome? fun image => image.wordAt a with
    | none => rfl
    | some w => rfl

/-- Settles O17: the memory of a launch is `Memory.loadImages`. -/
theorem launchMemory : Obligations.LaunchMemory :=
  fun memInit images _ _ a => Memory.read_loadImages memInit images a

/-! ## Launch and reset (R33, R161, R163) -/

theorem reg_of_regs_eq_replicate {s : State} (h : s.regs = Vector.replicate 8 0x0000) (i : Reg) : s.reg i = 0x0000 := by
  rw [State.reg, h, Vector.get_eq_getElem, Vector.getElem_replicate]

/-- Settles O16: the launch writes out each field. -/
theorem launchState : Obligations.LaunchState :=
  fun _ _ _ _ _ => ⟨reg_of_regs_eq_replicate rfl, rfl, rfl, rfl, rfl, rfl, rfl, rfl⟩

/-- Settles O18: the reset state writes out each field, and its memory lists no word. -/
theorem resetState : Obligations.ResetState :=
  ⟨reg_of_regs_eq_replicate rfl, rfl, rfl, rfl, rfl, rfl, fun _ => rfl, rfl⟩

/-! ## A load after a store (R52) -/

/-- Settles O12: away from 0xFE00 a read is plain, so this is reading a memory after a write. -/
theorem loadAfterStore : Obligations.LoadAfterStore := by
  intro s a b v w hb
  have hread : ∀ s : State, (memRead s b).1 = s.memWord b := fun s => congrArg Prod.fst (memRead_plain s hb)
  refine ⟨by rw [hread, hread, memWord_memWrite], fun hne => ?_⟩
  rw [hread, memWord_memWrite_ne _ _ hne.symm, memWord_memWrite_same]

/-! ## The flags (R86) -/

theorem condOf_of_neg {v : Word} (h : 0x8000 ≤ v.toNat) : condOf v = .neg := by
  rw [condOf, BitVec.msb_eq_decide, if_pos (decide_eq_true h)]

theorem condOf_of_zero {v : Word} (h : v.toNat = 0) : condOf v = .zero := by
  obtain rfl : v = 0x0000 := BitVec.eq_of_toNat_eq h
  rfl

theorem condOf_of_pos {v : Word} (h : 1 ≤ v.toNat) (h' : v.toNat ≤ 0x7FFF) : condOf v = .pos := by
  have hzero : v ≠ 0x0000 := by rintro rfl; exact absurd h (by decide)
  have hmsb : decide (2 ^ (16 - 1) ≤ v.toNat) = false := decide_eq_false (by omega)
  rw [condOf, BitVec.msb_eq_decide, hmsb, if_neg Bool.false_ne_true, if_neg hzero]

/-- Settles O7: `setcc` writes COND from the register alone; the three ranges of values exclude each other. -/
theorem conditionFlagUpdater : Obligations.ConditionFlagUpdater := by
  refine ⟨fun s i => ⟨?_, rfl, fun _ _ => rfl, fun _ => rfl, ⟨rfl, rfl⟩, ⟨rfl, rfl⟩⟩, fun v => ?_⟩
  · rw [setcc_cond, condOf, BitVec.msb_eq_getLsbD_last]
  · obtain hneg | hzero | ⟨hpos, hpos'⟩ :
        0x8000 ≤ v.toNat ∨ v.toNat = 0 ∨ 1 ≤ v.toNat ∧ v.toNat ≤ 0x7FFF := by omega
    · rw [condOf_of_neg hneg]
      simp only [reduceCtorEq, true_iff, false_iff]
      omega
    · rw [condOf_of_zero hzero]
      simp only [reduceCtorEq, true_iff, false_iff]
      omega
    · rw [condOf_of_pos hpos hpos']
      simp only [reduceCtorEq, true_iff, false_iff]
      omega

end Sys2Proof.Machine
end

section
/-! PROOFS. The keyboard environment (10_state.md section 6, R29; log entry 4): one input for polls and gets, and no sequence
of answers without its keyboard. -/

namespace Sys2Proof.Machine

/-! ## Polls and gets draw from one input -/

theorem Keyboard.get_stretch {tail : KeyTail} (h : tail ≠ .silent) :
    Keyboard.get ⟨[], tail⟩ = Keyboard.get ⟨tail.stretch, tail.next⟩ := by
  obtain ⟨c, hc⟩ := KeyTail.stretch_key h
  cases hkey : firstKey tail.stretch with
  | none => exact absurd (firstKey_eq_none.mp hkey _ hc) (by simp)
  | some p => simp [Keyboard.get, firstKey, hkey]

/-- Settles O13: the script's head by computation, its end by the laws of the next stretch. -/
theorem keyboardSharesOneInput : Obligations.KeyboardSharesOneInput :=
  ⟨fun _ _ _ => ⟨rfl, rfl, rfl, rfl⟩, rfl, fun _ h => ⟨Keyboard.poll_stretch h, Keyboard.get_stretch h⟩,
    fun _ => Keyboard.get_eq_none⟩

/-! ## Every sequence of answers (R29 (a)) -/

/-- The answers number `a` to `b - 1` of a sequence. -/
def answersBetween (f : Nat → Option Byte) (a b : Nat) : List (Option Byte) := (List.range' a (b - a)).map f

theorem mem_answersBetween {f : Nat → Option Byte} {a b i : Nat} (ha : a ≤ i) (hb : i < b) :
    f i ∈ answersBetween f a b :=
  List.mem_map_of_mem (List.mem_range'_1.mpr ⟨ha, by omega⟩)

/-- Cut points `cut 0 < cut 1 < …` cut a sequence into a first part and stretches that, put together, give it back. -/
theorem answers_of_cuts (f : Nat → Option Byte) {cut : Nat → Nat} (hcut : ∀ n, cut n < cut (n + 1)) (n : Nat) :
    answersBetween f 0 (cut 0) ++ (List.range n).flatMap (fun m => answersBetween f (cut m) (cut (m + 1))) =
      answersBetween f 0 (cut n) := by
  induction n with
  | zero => exact List.append_nil _
  | succ n ih =>
    rw [List.range_succ, List.flatMap_append, ← List.append_assoc, ih, List.flatMap_singleton, answersBetween,
      answersBetween, answersBetween, ← List.map_append]
    have happend := List.range'_append (s := 0) (m := cut n) (n := cut (n + 1) - cut n) (step := 1)
    rw [Nat.zero_add, Nat.one_mul, Nat.add_sub_cancel' (hcut n).le] at happend
    rw [Nat.sub_zero, Nat.sub_zero, happend]

theorem getElem?_answersBetween (f : Nat → Option Byte) {i b : Nat} (hi : i < b) :
    (answersBetween f 0 b)[i]? = some (f i) := by
  simp [answersBetween, hi]

/-- The script and then the stretches that `shape` makes of `answers` are the sequence `f`, however far one looks. -/
def GivesSequence (f : Nat → Option Byte) (script : List (Option Byte))
    (shape : List (Option Byte) → List (Option Byte)) (answers : Nat → List (Option Byte)) : Prop :=
  ∀ n : Nat, n ≤ (script ++ (List.range n).flatMap (fun m => shape (answers m))).length ∧
    ∀ i < (script ++ (List.range n).flatMap (fun m => shape (answers m))).length,
      (script ++ (List.range n).flatMap (fun m => shape (answers m)))[i]? = some (f i)

/-- A sequence whose stretches between cut points are kept by `shape` is the sequence of a tail of that shape. -/
theorem givesSequence_of_cuts (f : Nat → Option Byte) {shape : List (Option Byte) → List (Option Byte)}
    {cut : Nat → Nat} (hcut : ∀ n, cut n < cut (n + 1))
    (hshape : ∀ n, shape (answersBetween f (cut n) (cut (n + 1))) = answersBetween f (cut n) (cut (n + 1))) :
    GivesSequence f (answersBetween f 0 (cut 0)) shape fun n => answersBetween f (cut n) (cut (n + 1)) := by
  intro n
  have hlength : (answersBetween f 0 (cut n)).length = cut n := by simp [answersBetween]
  simp only [hshape]
  rw [answers_of_cuts f hcut, hlength]
  exact ⟨(strictMono_nat_of_lt_succ hcut).le_apply, fun i hi => getElem?_answersBetween f hi⟩

theorem busyStretch_singleton {a : Option Byte} (h : endsString a = false) : busyStretch [a] = [a] := by
  simp [busyStretch, h]

theorem mixedStretch_of_mem {l : List (Option Byte)} {a b : Option Byte} (ha : a ∈ l) (hkey : a.isSome = true)
    (hb : b ∈ l) (hends : endsString b = true) : mixedStretch l = l := by
  rw [mixedStretch, if_pos]
  rw [Bool.and_eq_true, List.any_eq_true, List.any_eq_true]
  exact ⟨⟨a, ha, hkey⟩, ⟨b, hb, hends⟩⟩

/-- A sequence that goes on from `N` is a script and a busy tail, one answer to a stretch. -/
theorem exists_givesSequence_busy {f : Nat → Option Byte} {N : Nat} (h : ∀ i, N ≤ i → endsString (f i) = false) :
    ∃ script answers, GivesSequence f script busyStretch answers := by
  refine ⟨_, _, givesSequence_of_cuts f (cut := fun n => N + n) (fun n => Nat.lt_succ_self _) fun n => ?_⟩
  have hone : answersBetween f (N + n) (N + (n + 1)) = [f (N + n)] := by simp [answersBetween, ← Nat.add_assoc]
  rw [hone, busyStretch_singleton (h _ (Nat.le_add_right N n))]

/-- Cut points from 0 on, each given by the one before. -/
def cutPoints (next : Nat → Nat) : Nat → Nat
  | 0 => 0
  | n + 1 => next (cutPoints next n)

/-- A sequence with always another character and always another answer that ends a string is a mixed tail: each stretch goes
on until it holds both. -/
theorem exists_givesSequence_mixed {f : Nat → Option Byte} (hkey : ∀ N, ∃ i, N ≤ i ∧ (f i).isSome = true)
    (hends : ∀ N, ∃ i, N ≤ i ∧ endsString (f i) = true) :
    ∃ script answers, GivesSequence f script mixedStretch answers := by
  choose key hkeyle hkey using hkey
  choose stop hstople hstop using hends
  have hlt : ∀ N, key N < max (key N) (stop N) + 1 ∧ stop N < max (key N) (stop N) + 1 := fun N => by omega
  refine ⟨_, _, givesSequence_of_cuts f (cut := cutPoints fun N => max (key N) (stop N) + 1) (fun n => ?_) fun n => ?_⟩
  · exact Nat.lt_of_le_of_lt (hkeyle _) (hlt _).1
  · exact mixedStretch_of_mem (mem_answersBetween (hkeyle _) (hlt _).1) (hkey _)
      (mem_answersBetween (hstople _) (hlt _).2) (hstop _)

/-- Settles O60: a sequence ends in no key for ever, or goes on from somewhere, or neither; these are the three tails. -/
theorem everyAnswerSequenceIsAKeyboards : Obligations.EveryAnswerSequenceIsAKeyboards := by
  intro f
  by_cases hsilent : ∃ N, ∀ i, N ≤ i → f i = none
  · obtain ⟨N, hN⟩ := hsilent
    refine ⟨answersBetween f 0 N, .inl fun i => ?_⟩
    rw [List.getD_eq_getElem?_getD]
    by_cases hi : i < N
    · rw [getElem?_answersBetween f hi]
      rfl
    · rw [hN i (by omega), List.getElem?_eq_none (by simp [answersBetween]; omega)]
      rfl
  by_cases hbusy : ∃ N, ∀ i, N ≤ i → endsString (f i) = false
  · obtain ⟨N, hN⟩ := hbusy
    obtain ⟨script, answers, h⟩ := exists_givesSequence_busy hN
    exact ⟨script, .inr ⟨busyStretch, by simp, answers, h⟩⟩
  · have hkey : ∀ N, ∃ i, N ≤ i ∧ (f i).isSome = true := by
      push Not at hsilent
      simpa [Option.isSome_iff_ne_none] using hsilent
    have hends : ∀ N, ∃ i, N ≤ i ∧ endsString (f i) = true := by
      push Not at hbusy
      simpa using hbusy
    obtain ⟨script, answers, h⟩ := exists_givesSequence_mixed hkey hends
    exact ⟨script, .inr ⟨mixedStretch, by simp, answers, h⟩⟩

end Sys2Proof.Machine
end
